-- ==== Sys2Proof/Word.lean ====
section
/-! DEFINITION. The machine's words: the buffer element and the position word (00_scope.md R5, R6). -/

namespace Sys2Proof

/-- One element of the byte buffer, `BYTE_W = 8` bits, bit 7 most significant (R5, R6). -/
abbrev Byte := BitVec 8

/-- The in-header operand field of a compact frame, `IMM_W = 6` bits (R5, R50). -/
abbrev Imm6 := BitVec 6

/-- A coordinate, `POS_W = 64` bits, read as two's complement (R5, R13, R14). -/
abbrev Pos := BitVec 64

end Sys2Proof
end

