-- ==== Sys2Proof/Config.lean ====
section
/-! DEFINITION. What an implementation fixes: the one width the spec leaves to a hardware realisation.
Its opaque constants are the command port's wires that the spec gives no value; no instruction's result is one. `LEN` and `BUF`, the
open parameters of a run (92_eei_decisions.md D15), are data the host loads and stand in State (notes/assumptions/3.md). -/

namespace Sys2Proof.Config

/-- `ADDR_W`, the cursor width of a hardware realisation, by default 32 (R5, D3). The model's cursor is a natural
number (R12), so no step reads this: it serves the statement that the cursor fits the bus. -/
def addrWidth : Nat := 32

/-- The longest frame, one header byte and four extension bytes (R5, R73). -/
def maxFrameLength : Nat := 5

/-- R12: the buffers a realisation with a cursor of `w` bits admits, `LEN <= 2^w - 5`. -/
abbrev admitsLength (w len : Nat) : Prop := len + maxFrameLength ≤ 2 ^ w

/-- R141: what a 64-bit lane of the command port carries where its command has no such argument, by lane and cursor: the spec gives
no value, so none can be proved (notes/assumptions/21.md). -/
opaque unusedLane : Nat → Nat → BitVec 64

/-- R141: `cmd_kind` while no command is presented, by cursor: a free value (notes/assumptions/21.md). -/
opaque idleKind : Nat → BitVec 3

end Sys2Proof.Config
end

