-- ==== Sys2Proof/Syntax.lean ====
section
/-! DEFINITION. The frames of the sketch bytecode as syntax: one constructor per row of spec/opcode_table.json
(30_encoding.md R50 to R57). -/

namespace Sys2Proof

/-- The outcome of opcode classification (R71): the closed enumeration of seven opcodes (R56) and `invalid`, the
spec's name for a reserved extended code. -/
inductive Opcode where
  | dx | dy | dt | pen | clear | key | col | invalid
  deriving DecidableEq, Repr

/-- The number of extension bytes an extended header declares, 0, 1, 2 or 4: the suffix `.e` of R59. -/
inductive ExtLen where
  | e0 | e1 | e2 | e4
  deriving DecidableEq, Repr

/-- The declared extra-byte count `E` as a number (R52: 0, 1, 2 or 4; never 3). -/
def ExtLen.count : ExtLen → Nat
  | .e0 => 0
  | .e1 => 1
  | .e2 => 2
  | .e4 => 4

/-- One frame. A compact frame carries its six operand bits as the header has them. An extended frame carries the
declared length and the extension bytes GATHERED, lowest offset first: all of them for a full frame, fewer for a frame
that the buffer's end truncates (R79, R93; notes/assumptions/17.md). -/
inductive Instr where
  /-- `DX`, `00 iiiiii`: move in x (R105). -/
  | dx (imm : Imm6)
  /-- `DY`, `01 iiiiii`: move in y, draw if the pen is down, record the position (R106). -/
  | dy (imm : Imm6)
  /-- `DT`, `10 iiiiii`: timed pause (R107). -/
  | dt (imm : Imm6)
  /-- `PEN`, `11 LL 0011`: toggle the pen (R115); the payload is ignored. -/
  | pen (e : ExtLen) (ext : List Byte)
  /-- `CLEAR`, `11 LL 0100`: clear the canvas (R116); the payload is ignored. -/
  | clear (e : ExtLen) (ext : List Byte)
  /-- `KEY`, `11 LL 0101`: wait for a key press (R117); the payload is ignored. -/
  | key (e : ExtLen) (ext : List Byte)
  /-- `COL`, `11 LL 0110`: set the colour to the signed payload (R118). -/
  | col (e : ExtLen) (ext : List Byte)
  /-- `RSVD0`, `11 LL 0000`: a reserved encoding, reported and skipped (R57, R119). -/
  | rsvd0 (e : ExtLen) (ext : List Byte)
  /-- `RSVD1`, `11 LL 0001`: a reserved encoding, reported and skipped (R57, R119). -/
  | rsvd1 (e : ExtLen) (ext : List Byte)
  /-- `RSVD2`, `11 LL 0010`: a reserved encoding, reported and skipped (R57, R119). -/
  | rsvd2 (e : ExtLen) (ext : List Byte)
  /-- `RSVD7`, `11 LL 0111`: a reserved encoding, reported and skipped (R57, R119). -/
  | rsvd7 (e : ExtLen) (ext : List Byte)
  /-- `RSVD8`, `11 LL 1000`: a reserved encoding, reported and skipped (R57, R119). -/
  | rsvd8 (e : ExtLen) (ext : List Byte)
  /-- `RSVD9`, `11 LL 1001`: a reserved encoding, reported and skipped (R57, R119). -/
  | rsvd9 (e : ExtLen) (ext : List Byte)
  /-- `RSVD10`, `11 LL 1010`: a reserved encoding, reported and skipped (R57, R119). -/
  | rsvd10 (e : ExtLen) (ext : List Byte)
  /-- `RSVD11`, `11 LL 1011`: a reserved encoding, reported and skipped (R57, R119). -/
  | rsvd11 (e : ExtLen) (ext : List Byte)
  /-- `RSVD12`, `11 LL 1100`: a reserved encoding, reported and skipped (R57, R119). -/
  | rsvd12 (e : ExtLen) (ext : List Byte)
  /-- `RSVD13`, `11 LL 1101`: a reserved encoding, reported and skipped (R57, R119). -/
  | rsvd13 (e : ExtLen) (ext : List Byte)
  /-- `RSVD14`, `11 LL 1110`: a reserved encoding, reported and skipped (R57, R119). -/
  | rsvd14 (e : ExtLen) (ext : List Byte)
  /-- `RSVD15`, `11 LL 1111`: a reserved encoding, reported and skipped (R57, R119). -/
  | rsvd15 (e : ExtLen) (ext : List Byte)
  deriving DecidableEq, Repr

/-- The declared extension length of a frame; a compact frame declares none (R72). -/
def Instr.extLen : Instr → ExtLen
  | .dx _ | .dy _ | .dt _ => .e0
  | .pen e _ => e
  | .clear e _ => e
  | .key e _ => e
  | .col e _ => e
  | .rsvd0 e _ => e
  | .rsvd1 e _ => e
  | .rsvd2 e _ => e
  | .rsvd7 e _ => e
  | .rsvd8 e _ => e
  | .rsvd9 e _ => e
  | .rsvd10 e _ => e
  | .rsvd11 e _ => e
  | .rsvd12 e _ => e
  | .rsvd13 e _ => e
  | .rsvd14 e _ => e
  | .rsvd15 e _ => e

/-- The extension bytes gathered for a frame; a compact frame has none. -/
def Instr.payload : Instr → List Byte
  | .dx _ | .dy _ | .dt _ => []
  | .pen _ ext => ext
  | .clear _ ext => ext
  | .key _ ext => ext
  | .col _ ext => ext
  | .rsvd0 _ ext => ext
  | .rsvd1 _ ext => ext
  | .rsvd2 _ ext => ext
  | .rsvd7 _ ext => ext
  | .rsvd8 _ ext => ext
  | .rsvd9 _ ext => ext
  | .rsvd10 _ ext => ext
  | .rsvd11 _ ext => ext
  | .rsvd12 _ ext => ext
  | .rsvd13 _ ext => ext
  | .rsvd14 _ ext => ext
  | .rsvd15 _ ext => ext

end Sys2Proof
end

