-- ==== Sys2Proof/WellFormed.lean ====
section
/-! DEFINITION. What makes a frame well formed: no more extension bytes than its header declares (R70, R93). -/

namespace Sys2Proof

/-- R70, R93: the gathered bytes are at most the declared ones, `k <= E`. The compact operand is six bits by its type. -/
def Instr.wf (i : Instr) : Bool := decide (i.payload.length ≤ i.extLen.count)

/-- A full frame: every declared extension byte is present, `k = E` (R78). A well-formed frame that is not full is a
truncated frame (R79, R93). -/
def Instr.full (i : Instr) : Bool := decide (i.payload.length = i.extLen.count)

end Sys2Proof
end

