-- ==== Sys2Proof/Decode.lean ====
section
/-! DEFINITION. DEC's classifier (40_decoder.md R71 to R73), the decoder from bytes to a frame, and the encoder, both
written from the encoding tables of 30_encoding.md (R50, R52, R56). -/

namespace Sys2Proof

/-- `s = h[7:6]` (R50). -/
def hdrSel (h : Byte) : BitVec 2 := h.extractLsb' 6 2

/-- `L = h[5:4]`, a length selector only when `s = 3` (R50). -/
def hdrLen (h : Byte) : BitVec 2 := h.extractLsb' 4 2

/-- `xop = h[3:0]` (R50). -/
def hdrXop (h : Byte) : BitVec 4 := h.extractLsb' 0 4

/-- `imm6 = h[5:0]`, that is `h & 0x3F` (R50, R54). -/
def hdrImm (h : Byte) : Imm6 := h.extractLsb' 0 6

/-- R71: the opcode of a header byte; total over all 256 values. -/
def classify (h : Byte) : Opcode :=
  match (hdrSel h).toNat with
  | 0 => .dx
  | 1 => .dy
  | 2 => .dt
  | _ =>
    match (hdrXop h).toNat with
    | 3 => .pen
    | 4 => .clear
    | 5 => .key
    | 6 => .col
    | _ => .invalid

/-- R72: the length selector `L` as an extension length, `E = 4` if `L = 3`, else `E = L`. -/
def extLenOfSel (l : BitVec 2) : ExtLen :=
  match l.toNat with
  | 0 => .e0
  | 1 => .e1
  | 2 => .e2
  | _ => .e4

/-- The length selector that declares an extension length (R52, the table of formats). -/
def selOfExtLen : ExtLen → BitVec 2
  | .e0 => 0#2
  | .e1 => 1#2
  | .e2 => 2#2
  | .e4 => 3#2

/-- R72: the extension length a header declares; bits 5 and 4 of a compact header declare nothing. -/
def declaredLen (h : Byte) : ExtLen :=
  match (hdrSel h).toNat with
  | 3 => extLenOfSel (hdrLen h)
  | _ => .e0

/-- R72: the extra-byte count `E` of a header. -/
def extraCount (h : Byte) : Nat := (declaredLen h).count

/-- R73: the declared frame length, `FLEN = 1 + E`. -/
def frameLength (h : Byte) : Nat := 1 + extraCount h

/-- The frame with header `h` and gathered extension bytes `ext` (R50, R56, R57). -/
def frameInstr (h : Byte) (ext : List Byte) : Instr :=
  match (hdrSel h).toNat with
  | 0 => .dx (hdrImm h)
  | 1 => .dy (hdrImm h)
  | 2 => .dt (hdrImm h)
  | _ =>
    match (hdrXop h).toNat with
    | 0 => .rsvd0 (declaredLen h) ext
    | 1 => .rsvd1 (declaredLen h) ext
    | 2 => .rsvd2 (declaredLen h) ext
    | 3 => .pen (declaredLen h) ext
    | 4 => .clear (declaredLen h) ext
    | 5 => .key (declaredLen h) ext
    | 6 => .col (declaredLen h) ext
    | 7 => .rsvd7 (declaredLen h) ext
    | 8 => .rsvd8 (declaredLen h) ext
    | 9 => .rsvd9 (declaredLen h) ext
    | 10 => .rsvd10 (declaredLen h) ext
    | 11 => .rsvd11 (declaredLen h) ext
    | 12 => .rsvd12 (declaredLen h) ext
    | 13 => .rsvd13 (declaredLen h) ext
    | 14 => .rsvd14 (declaredLen h) ext
    | _ => .rsvd15 (declaredLen h) ext

/-- Why bytes hold no frame. Every header value is a frame (R71), so the only reason is that there is no header. -/
inductive DecodeReject where
  | noHeaderByte
  deriving DecidableEq, Repr

/-- The frame at the head of a buffer's remaining bytes, and the bytes after its declared length. Where fewer bytes
remain than the header declares, the frame has those that remain (R93). -/
def decode : List Byte → Except DecodeReject (Instr × List Byte)
  | [] => .error .noHeaderByte
  | h :: rest => .ok (frameInstr h (rest.take (extraCount h)), rest.drop (extraCount h))

/-- An extended header, `11 LL xxxx` (R50, view X). -/
def extHeader (e : ExtLen) (xop : BitVec 4) : Byte := 3#2 ++ selOfExtLen e ++ xop

/-- The header byte of a frame (R50, R56). -/
def Instr.header : Instr → Byte
  | .dx imm => 0#2 ++ imm
  | .dy imm => 1#2 ++ imm
  | .dt imm => 2#2 ++ imm
  | .pen e _ => extHeader e 3#4
  | .clear e _ => extHeader e 4#4
  | .key e _ => extHeader e 5#4
  | .col e _ => extHeader e 6#4
  | .rsvd0 e _ => extHeader e 0#4
  | .rsvd1 e _ => extHeader e 1#4
  | .rsvd2 e _ => extHeader e 2#4
  | .rsvd7 e _ => extHeader e 7#4
  | .rsvd8 e _ => extHeader e 8#4
  | .rsvd9 e _ => extHeader e 9#4
  | .rsvd10 e _ => extHeader e 10#4
  | .rsvd11 e _ => extHeader e 11#4
  | .rsvd12 e _ => extHeader e 12#4
  | .rsvd13 e _ => extHeader e 13#4
  | .rsvd14 e _ => extHeader e 14#4
  | .rsvd15 e _ => extHeader e 15#4

/-- The bytes of a frame, header first, then the extension bytes it has (R6, R33). -/
def encode (i : Instr) : List Byte := i.header :: i.payload

/-- The frame length an instruction declares, `FLEN = 1 + E` (R52, R73). -/
def Instr.frameLength (i : Instr) : Nat := 1 + i.extLen.count

/-- The bytes of an opcode-table word in buffer order: byte `j` holds bits `8j+7 .. 8j` of `w`, the header is byte 0, and
every bit above `nbits` is zero, up to the longest frame. -/
def tableBytes (nbits w : Nat) : List Byte :=
  [BitVec.ofNat 8 (w % 2 ^ nbits), BitVec.ofNat 8 (w % 2 ^ nbits / 2 ^ 8), BitVec.ofNat 8 (w % 2 ^ nbits / 2 ^ 16),
   BitVec.ofNat 8 (w % 2 ^ nbits / 2 ^ 24), BitVec.ofNat 8 (w % 2 ^ nbits / 2 ^ 32)]

/-- The frame the decoder reads from an opcode-table word. -/
def decodeTableWord (nbits w : Nat) : Option Instr :=
  match decode (tableBytes nbits w) with
  | .ok (i, _) => some i
  | .error _ => none

/-- The bytes of that frame alone: as many as its header declares. -/
def tableFrame (nbits w : Nat) : List Byte :=
  match decodeTableWord nbits w with
  | some i => encode i
  | none => []

end Sys2Proof
end

