-- ==== Sys2Proof/Machine/State.lean ====
section
/-! DEFINITION. The machine's state (10_state.md R10 to R25), its outputs, and the state after reset (R24). -/

namespace Sys2Proof.Machine

/-- A command to the rendering surface (R20, R141): the capability set without `create`. -/
inductive Command where
  /-- `line(surface, x0, y0, x1, y1)`, four 64-bit signed coordinates; from `DY`. -/
  | line (x0 y0 x1 y1 : Pos)
  /-- `clear(surface)`; from `CLEAR`. -/
  | clear
  /-- `pause(surface, duration_ms)`; from `DT`. -/
  | pause (ms : Nat)
  /-- `key(surface)`; from `KEY`. -/
  | key
  /-- `colour(surface, colour_code)`, the signed operand in the 32-bit range; from `COL`. -/
  | colour (code : Int)
  deriving DecidableEq, Repr

/-- An event of the report trace (R21, R130): the offset of the offending header and the header byte. -/
inductive Report where
  | invalidInstruction (cur : Nat) (h : Byte)
  deriving DecidableEq, Repr

/-- Why the machine stops. The spec has no failing end state (R91, R132): the one constructor stands for the reads the
spec gives no meaning, and no step reaches it. -/
inductive Fault where
  /-- A read of the buffer at an offset `addr >= LEN`, which R31 leaves without a meaning. Raised by
  `State.memRead`. Safe: the spec's machine never issues such a read, and no step of the model does. -/
  | readOutsideBuffer (addr : Nat)
  deriving DecidableEq, Repr

/-- Why the model has no meaning for a frame. -/
inductive Refusal where
  /-- Raised by an arm of `exec` whose instruction has no meaning yet; no arm does. Safe. -/
  | notModelled (mnemonic : String)
  deriving DecidableEq, Repr

/-- The byte buffer: cells in rising address order, none equal to what an unlisted offset reads as
(notes/assumptions/4.md). -/
abbrev Memory := List Host.Cell

/-- The run status, a function of `CUR` and `LEN` and no register (R12). -/
inductive Status where
  | running | done
  deriving DecidableEq, Repr

/-- The machine. The registers are those of R10; `mem` and `len` are the run's parameters `BUF` and `LEN` (R22), in
State because the host loads them (notes/assumptions/3.md); the two traces are the outputs of R20 and R21. -/
structure State where
  /-- `CUR`, the cursor (R11). -/
  cur : Nat
  /-- `X` (R13). -/
  x : Pos
  /-- `Y` (R13). -/
  y : Pos
  /-- `PX`, the previous `x` (R14). -/
  px : Pos
  /-- `PY`, the previous `y` (R14). -/
  py : Pos
  /-- `PEN`, true when the pen is down (R15). -/
  pen : Bool
  /-- `BUF` (R22, R30). -/
  mem : Memory
  /-- `LEN` (R22, R30). -/
  len : Nat
  /-- The command trace, oldest first (R20). -/
  commands : List Command
  /-- The report trace, oldest first (R21). -/
  reports : List Report
  deriving DecidableEq, Repr

/-- R24: the state after reset, before a buffer is loaded: every register zero, both traces empty. No buffer is loaded
yet, so `LEN = 0` (notes/assumptions/3.md). -/
def State.reset : State where
  cur := 0
  x := 0#64
  y := 0#64
  px := 0#64
  py := 0#64
  pen := false
  mem := []
  len := 0
  commands := []
  reports := []

end Sys2Proof.Machine
end

