-- ==== Sys2Proof/Machine/Ops.lean ====
section
/-! DEFINITION. The shared operations over the buffer, the registers and the output traces, and the one exceptional
condition, the invalid-instruction report (20_memory.md R30 to R32, 42_compact_ops.md R108, 60_exceptions.md R130). -/

namespace Sys2Proof.Machine

/-- What an offset that the buffer does not list reads as (notes/assumptions/4.md). -/
def Memory.blank : Byte := 0#8

/-- The byte at one offset. -/
def Memory.read : Memory → Nat → Byte
  | [], _ => Memory.blank
  | (a, b) :: m, k => if a = k then b else Memory.read m k

/-- The buffer with one byte placed; a byte equal to the blank one is not listed. Only the loader uses this: no
instruction writes the buffer (R35, R99). -/
def Memory.write : Memory → Nat → Byte → Memory
  | [], k, v => if v = Memory.blank then [] else [(k, v)]
  | (a, b) :: m, k, v =>
    if a < k then (a, b) :: Memory.write m k v
    else if a = k then (if v = Memory.blank then m else (k, v) :: m)
    else if v = Memory.blank then (a, b) :: m
    else (k, v) :: (a, b) :: m

/-- The buffer with consecutive bytes placed from an offset up. -/
def Memory.loadAt : Memory → Nat → List Byte → Memory
  | m, _, [] => m
  | m, k, b :: bs => Memory.loadAt (Memory.write m k b) (k + 1) bs

/-- The canonical form from an offset up: addresses strictly rising from `lo`, no blank byte listed. -/
def Memory.wfFrom : Nat → Memory → Bool
  | _, [] => true
  | lo, (a, b) :: m => decide (lo ≤ a) && decide (b ≠ Memory.blank) && Memory.wfFrom (a + 1) m

/-- The canonical form of a buffer: equal buffers are equal lists. -/
def Memory.wf (m : Memory) : Bool := Memory.wfFrom 0 m

/-- No cell lies at or beyond an offset. -/
def Memory.below (n : Nat) (m : Memory) : Bool := m.all fun c => decide (c.1 < n)

/-- R12, R91: `RUNNING` while `CUR < LEN`, else `DONE`. -/
def State.status (s : State) : Status := if s.cur < s.len then .running else .done

/-- R31: `MemRead(a, 1)`, defined only for `a < LEN`. -/
def State.memRead (s : State) (a : Nat) : Except Fault Byte :=
  if a < s.len then .ok (s.mem.read a) else .error (.readOutsideBuffer a)

/-- R108: a position register plus an operand sign-extended to 64 bits, wrapping modulo 2^64
(notes/assumptions/7.md). -/
def addPos (p : Pos) (n : Int) : Pos := p + BitVec.ofInt 64 n

/-- `X <- v` (R105). -/
def State.setX (s : State) (v : Pos) : State := { s with x := v }

/-- `Y <- v` (R106). -/
def State.setY (s : State) (v : Pos) : State := { s with y := v }

/-- `(PX, PY) <- (X, Y)`: the current position becomes the anchor (R14, R106). -/
def State.recordPosition (s : State) : State := { s with px := s.x, py := s.y }

/-- `emit c`: one command at the end of the command trace (R6, R20). -/
def State.emit (s : State) (c : Command) : State := { s with commands := s.commands ++ [c] }

/-- The invalid-instruction condition, the machine's only exception (R130, R136): one event with the offset of the frame's
header and the header byte joins the report trace. Nothing is saved, no mode changes and control goes nowhere; there is
no return from it (R137). The cursor still stands at the header here; the sequencer advances it afterwards (R96). -/
def State.reportInvalid (s : State) (h : Byte) : State :=
  { s with reports := s.reports ++ [.invalidInstruction s.cur h] }

/-- R96: `CUR <- CUR + FLEN`, the only change of the program counter. -/
def State.advance (s : State) (flen : Nat) : State := { s with cur := s.cur + flen }

end Sys2Proof.Machine
end

