-- ==== Sys2Proof/Machine/Operands.lean ====
section
/-! DEFINITION. DEC's operand unpacker (40_decoder.md R75 to R82): sign conversion, big-endian packing and every operand
form. -/

namespace Sys2Proof.Machine

/-- R75: the sign conversion of a `b`-bit unsigned value, `v - 2^b` if `v >= 2^(b-1)`, else `v`; for `b >= 1`. -/
def signed (v b : Nat) : Int := if 2 ^ (b - 1) ≤ v then (v : Int) - 2 ^ b else v

/-- R33, R78: the extension bytes packed big-endian, the byte at the lowest offset most significant. -/
def packBE (ext : List Byte) : Nat := ext.foldl (fun p b => p * 256 + b.toNat) 0

/-- R76: the operand of `DX` and `DY`, -32 .. 31. -/
def moveOperand (imm : Imm6) : Int := signed imm.toNat 6

/-- R76: the operand of `DT`, 0 .. 63, never sign-converted. -/
def pauseOperand (imm : Imm6) : Nat := imm.toNat

/-- R77, R79: the operand of an extended frame with no extension byte gathered. R77 states 0 for a frame that declares
none; for a truncated frame 0 is the spec's decision D5 (notes/assumptions/8.md). -/
def emptyPayloadOperand : Int := 0

/-- R77, R78, R79: the operand of an extended frame: the bytes gathered, packed and sign-converted at their own width. -/
def payloadOperand : List Byte → Int
  | [] => emptyPayloadOperand
  | b :: bs => signed (packBE (b :: bs)) (8 * (b :: bs).length)

/-- R80: the unpacker as one function of the header and the `k = ext.length` bytes gathered. -/
def decOperand (h : Byte) (ext : List Byte) : Int :=
  match (hdrSel h).toNat with
  | 0 => moveOperand (hdrImm h)
  | 1 => moveOperand (hdrImm h)
  | 2 => pauseOperand (hdrImm h)
  | _ => payloadOperand ext

/-- R107: `PAUSE_SCALE`, the milliseconds in one unit of a `DT` operand. -/
def pauseScale : Nat := 10

/-- R107: the duration of a pause, `operand * 10`. -/
def pauseDuration (operand : Nat) : Nat := operand * pauseScale

end Sys2Proof.Machine
end

