-- ==== Sys2Proof/Machine/Flags.lean ====
section
/-! DEFINITION. The machine has no condition codes and no status flags (R17). Its one mode bit is the pen, which an
instruction of its own toggles (R115). -/

namespace Sys2Proof.Machine

/-- `PEN <- 1 - PEN` (R115). -/
def State.togglePen (s : State) : State := { s with pen := !s.pen }

end Sys2Proof.Machine
end

