-- ==== Sys2Proof/Machine/Compact.lean ====
section
/-! DEFINITION. The compact instructions `DX`, `DY`, `DT` (42_compact_ops.md R105 to R107). -/

namespace Sys2Proof.Machine

/-- `DX` (R105): `X <- X + operand`; nothing is drawn and the anchor stays. -/
def execDx (imm : Imm6) (s : State) : Host.Outcome State Fault Refusal :=
  .next (s.setX (addPos s.x (moveOperand imm)))

/-- What `DY` draws (R106): with the pen down, one line from the anchor to the current position, of length zero too
(notes/assumptions/14.md); with the pen up, nothing. -/
def State.stroke (s : State) : List Command :=
  match s.pen with
  | true => [.line s.px s.py s.x s.y]
  | false => []

/-- `DY`'s drawing (R106): the stroke joins the command trace. -/
def State.drawIfDown (s : State) : State := { s with commands := s.commands ++ s.stroke }

/-- `DY` (R106): add, then draw from the OLD anchor to the NEW position, then record the position. -/
def execDy (imm : Imm6) (s : State) : Host.Outcome State Fault Refusal :=
  .next (s.setY (addPos s.y (moveOperand imm))).drawIfDown.recordPosition

/-- `DT` (R107): emit `Pause(operand * 10)`; `DT 0` emits `Pause(0)`. -/
def execDt (imm : Imm6) (s : State) : Host.Outcome State Fault Refusal :=
  .next (s.emit (.pause (pauseDuration (pauseOperand imm))))

end Sys2Proof.Machine
end

