-- ==== Sys2Proof/Machine/Extended.lean ====
section
/-! DEFINITION. The extended instructions `PEN`, `CLEAR`, `KEY`, `COL` (43_extended_ops.md R115 to R118). `PEN`, `CLEAR` and
`KEY` ignore the payload their header may declare (R82). -/

namespace Sys2Proof.Machine

/-- `PEN` (R115): toggle the pen. -/
def execPen (s : State) : Host.Outcome State Fault Refusal := .next s.togglePen

/-- `CLEAR` (R116): emit `Clear`. -/
def execClear (s : State) : Host.Outcome State Fault Refusal := .next (s.emit .clear)

/-- `KEY` (R117): emit `Key`; the surface's wait is the environment's (R100, notes/assumptions/10.md). -/
def execKey (s : State) : Host.Outcome State Fault Refusal := .next (s.emit .key)

/-- `COL` (R118): emit `Colour(operand)` with the signed operand of the bytes gathered. -/
def execCol (ext : List Byte) (s : State) : Host.Outcome State Fault Refusal :=
  .next (s.emit (.colour (payloadOperand ext)))

end Sys2Proof.Machine
end

