-- ==== Sys2Proof/Machine/Reserved.lean ====
section
/-! DEFINITION. The twelve reserved extended encodings (43_extended_ops.md R119): each is reported and is otherwise a
no-op; its payload is ignored. -/

namespace Sys2Proof.Machine

/-- `RSVD0`, `xop = 0`: report `InvalidInstruction(CUR, h)`, nothing else (R119, R130). -/
def execRsvd0 (e : ExtLen) (s : State) : Host.Outcome State Fault Refusal :=
  .next (s.reportInvalid (extHeader e 0#4))

/-- `RSVD1`, `xop = 1`: report `InvalidInstruction(CUR, h)`, nothing else (R119, R130). -/
def execRsvd1 (e : ExtLen) (s : State) : Host.Outcome State Fault Refusal :=
  .next (s.reportInvalid (extHeader e 1#4))

/-- `RSVD2`, `xop = 2`: report `InvalidInstruction(CUR, h)`, nothing else (R119, R130). -/
def execRsvd2 (e : ExtLen) (s : State) : Host.Outcome State Fault Refusal :=
  .next (s.reportInvalid (extHeader e 2#4))

/-- `RSVD7`, `xop = 7`: report `InvalidInstruction(CUR, h)`, nothing else (R119, R130). -/
def execRsvd7 (e : ExtLen) (s : State) : Host.Outcome State Fault Refusal :=
  .next (s.reportInvalid (extHeader e 7#4))

/-- `RSVD8`, `xop = 8`: report `InvalidInstruction(CUR, h)`, nothing else (R119, R130). -/
def execRsvd8 (e : ExtLen) (s : State) : Host.Outcome State Fault Refusal :=
  .next (s.reportInvalid (extHeader e 8#4))

/-- `RSVD9`, `xop = 9`: report `InvalidInstruction(CUR, h)`, nothing else (R119, R130). -/
def execRsvd9 (e : ExtLen) (s : State) : Host.Outcome State Fault Refusal :=
  .next (s.reportInvalid (extHeader e 9#4))

/-- `RSVD10`, `xop = 10`: report `InvalidInstruction(CUR, h)`, nothing else (R119, R130). -/
def execRsvd10 (e : ExtLen) (s : State) : Host.Outcome State Fault Refusal :=
  .next (s.reportInvalid (extHeader e 10#4))

/-- `RSVD11`, `xop = 11`: report `InvalidInstruction(CUR, h)`, nothing else (R119, R130). -/
def execRsvd11 (e : ExtLen) (s : State) : Host.Outcome State Fault Refusal :=
  .next (s.reportInvalid (extHeader e 11#4))

/-- `RSVD12`, `xop = 12`: report `InvalidInstruction(CUR, h)`, nothing else (R119, R130). -/
def execRsvd12 (e : ExtLen) (s : State) : Host.Outcome State Fault Refusal :=
  .next (s.reportInvalid (extHeader e 12#4))

/-- `RSVD13`, `xop = 13`: report `InvalidInstruction(CUR, h)`, nothing else (R119, R130). -/
def execRsvd13 (e : ExtLen) (s : State) : Host.Outcome State Fault Refusal :=
  .next (s.reportInvalid (extHeader e 13#4))

/-- `RSVD14`, `xop = 14`: report `InvalidInstruction(CUR, h)`, nothing else (R119, R130). -/
def execRsvd14 (e : ExtLen) (s : State) : Host.Outcome State Fault Refusal :=
  .next (s.reportInvalid (extHeader e 14#4))

/-- `RSVD15`, `xop = 15`: report `InvalidInstruction(CUR, h)`, nothing else (R119, R130). -/
def execRsvd15 (e : ExtLen) (s : State) : Host.Outcome State Fault Refusal :=
  .next (s.reportInvalid (extHeader e 15#4))

end Sys2Proof.Machine
end

