-- ==== Sys2Proof/Machine/Dispatch.lean ====
section
/-! DEFINITION. The dispatch of a frame to its meaning (41_sequencer.md R95), one arm per constructor. -/

namespace Sys2Proof.Machine

def exec (i : Instr) (s : State) : Host.Outcome State Fault Refusal :=
  match i with
  | .dx imm => Sys2Proof.Machine.execDx imm s
  | .dy imm => Sys2Proof.Machine.execDy imm s
  | .dt imm => Sys2Proof.Machine.execDt imm s
  | .pen _ _ => Sys2Proof.Machine.execPen s
  | .clear _ _ => Sys2Proof.Machine.execClear s
  | .key _ _ => Sys2Proof.Machine.execKey s
  | .col _ ext => Sys2Proof.Machine.execCol ext s
  | .rsvd0 e _ => Sys2Proof.Machine.execRsvd0 e s
  | .rsvd1 e _ => Sys2Proof.Machine.execRsvd1 e s
  | .rsvd2 e _ => Sys2Proof.Machine.execRsvd2 e s
  | .rsvd7 e _ => Sys2Proof.Machine.execRsvd7 e s
  | .rsvd8 e _ => Sys2Proof.Machine.execRsvd8 e s
  | .rsvd9 e _ => Sys2Proof.Machine.execRsvd9 e s
  | .rsvd10 e _ => Sys2Proof.Machine.execRsvd10 e s
  | .rsvd11 e _ => Sys2Proof.Machine.execRsvd11 e s
  | .rsvd12 e _ => Sys2Proof.Machine.execRsvd12 e s
  | .rsvd13 e _ => Sys2Proof.Machine.execRsvd13 e s
  | .rsvd14 e _ => Sys2Proof.Machine.execRsvd14 e s
  | .rsvd15 e _ => Sys2Proof.Machine.execRsvd15 e s

end Sys2Proof.Machine
end

