-- ==== Sys2Proof/Machine/Sequencer.lean ====
section
/-! DEFINITION. SEQ's fetch and gather (41_sequencer.md R91 to R93). -/

namespace Sys2Proof.Machine

/-- R93: the number of extension bytes that exist, `k = min(E, LEN - CUR - 1)`. -/
def State.gatherCount (s : State) (h : Byte) : Nat := min (extraCount h) (s.len - s.cur - 1)

/-- Consecutive one-byte reads in ascending order (R35, R93); the first read outside the buffer ends them. -/
def State.readBytes (s : State) : Nat → Nat → Except Fault (List Byte)
  | _, 0 => .ok []
  | a, k + 1 =>
    match s.memRead a with
    | .error f => .error f
    | .ok b =>
      match s.readBytes (a + 1) k with
      | .error f => .error f
      | .ok bs => .ok (b :: bs)

/-- R91 to R93: the frame at the cursor, its header byte and the extension bytes gathered. -/
def State.fetchFrame (s : State) : Except Fault (Byte × List Byte) :=
  match s.memRead s.cur with
  | .error f => .error f
  | .ok h =>
    match s.readBytes (s.cur + 1) (s.gatherCount h) with
    | .error f => .error f
    | .ok ext => .ok (h, ext)

end Sys2Proof.Machine
end

