-- ==== Sys2Proof/Machine/Step.lean ====
section
/-! DEFINITION. One step of the machine (41_sequencer.md R90) and how the host places a frame for the next step. -/

namespace Sys2Proof.Machine

/-- R90: one frame, from its fetch to the cursor's advance by the declared length. In `DONE` no step is enabled and the
state stays as it is (R12, R25, R91; notes/assumptions/2.md). -/
def step (s : State) : Host.Outcome State Fault Refusal :=
  match s.status with
  | .done => .next s
  | .running =>
    match s.fetchFrame with
    | .error f => .fault f
    | .ok (h, ext) =>
      match exec (frameInstr h ext) s with
      | .next t => .next (t.advance (frameLength h))
      | .fault f => .fault f
      | .refused r => .refused r

/-- The host's placing of one frame where the next step fetches: its bytes from the cursor up, and the buffer long enough
to hold all of it (notes/assumptions/3.md). -/
def State.withFetchWord (s : State) (nbits w : Nat) : State :=
  { s with
    mem := s.mem.loadAt s.cur (tableFrame nbits w)
    len := max s.len (s.cur + (tableFrame nbits w).length) }

end Sys2Proof.Machine
end

