-- ==== Sys2Proof/Machine/Assembler.lean ====
section
/-! DEFINITION. The assembler notation of 30_encoding.md R59 as structured lines and their bytes. The notation is the spec's own
(92_eei_decisions.md D12) and no part of the machine: programs reach the machine as bytes. -/

namespace Sys2Proof.Machine

/-- One line of the notation. A suffix `.e` is the declared extension length, `.e0` where R59 writes no suffix. -/
inductive AsmLine where
  /-- `DX n` -/
  | dx (n : Int)
  /-- `DY n` -/
  | dy (n : Int)
  /-- `DT n` -/
  | dt (n : Nat)
  /-- `PEN`, `PEN.e value` -/
  | pen (e : ExtLen) (value : Nat)
  /-- `CLEAR`, `CLEAR.e value` -/
  | clear (e : ExtLen) (value : Nat)
  /-- `KEY`, `KEY.e value` -/
  | key (e : ExtLen) (value : Nat)
  /-- `COL.e n`; `COL.0` is `n = 0` -/
  | col (e : ExtLen) (n : Int)
  /-- `INV.e x payload` -/
  | inv (e : ExtLen) (x : Nat) (payload : Nat)
  /-- `.byte v` -/
  | byte (v : Nat)
  deriving DecidableEq, Repr

/-- A value as `k` bytes, most significant first (R33). -/
def bytesBE : Nat → Nat → List Byte
  | 0, _ => []
  | k + 1, v => BitVec.ofNat 8 (v / 256 ^ k) :: bytesBE k v

/-- R55: the signed range of a payload of `k` bytes; a frame with none has operand 0. -/
def fitsPayload (k : Nat) (n : Int) : Bool :=
  match k with
  | 0 => decide (n = 0)
  | k + 1 => decide (-(128 * 256 ^ k : Nat) ≤ n) && decide (n < (128 * 256 ^ k : Nat))

/-- The two's-complement payload of a signed value in `k` bytes. -/
def payloadOf (k : Nat) (n : Int) : List Byte := bytesBE k (n % (256 ^ k : Nat)).toNat

/-- The reserved codes `x` that `INV.e x` may name (R57). -/
def reservedXop (x : Nat) : Bool := decide (x < 16) && decide (x < 3 ∨ 6 < x)

/-- R59: the bytes of a line; nothing for a line whose number is out of the range R59 gives it. -/
def assembleLine : AsmLine → Option (List Byte)
  | .dx n => if -32 ≤ n ∧ n ≤ 31 then some (encode (.dx (BitVec.ofInt 6 n))) else none
  | .dy n => if -32 ≤ n ∧ n ≤ 31 then some (encode (.dy (BitVec.ofInt 6 n))) else none
  | .dt n => if n ≤ 63 then some (encode (.dt (BitVec.ofNat 6 n))) else none
  | .pen e v => if v < 256 ^ e.count then some (encode (.pen e (bytesBE e.count v))) else none
  | .clear e v => if v < 256 ^ e.count then some (encode (.clear e (bytesBE e.count v))) else none
  | .key e v => if v < 256 ^ e.count then some (encode (.key e (bytesBE e.count v))) else none
  | .col e n => if fitsPayload e.count n then some (encode (.col e (payloadOf e.count n))) else none
  | .inv e x p =>
    if reservedXop x ∧ p < 256 ^ e.count then some (extHeader e (BitVec.ofNat 4 x) :: bytesBE e.count p) else none
  | .byte v => if v < 256 then some [BitVec.ofNat 8 v] else none

/-- The bytes of a program's lines, in order (R32: no gaps, no padding). -/
def assemble : List AsmLine → Option (List Byte)
  | [] => some []
  | l :: ls =>
    match assembleLine l, assemble ls with
    | some bs, some rest => some (bs ++ rest)
    | none, _ => none
    | some _, none => none

end Sys2Proof.Machine
end

