-- ==== Sys2Proof/Machine/Boot.lean ====
section
/-! DEFINITION. The host's side of a run: loading a buffer and applying reset (70_reset_and_hazards.md R150, R156, R158). -/

namespace Sys2Proof.Machine

/-- R156, R158: the state a run starts from: reset, with the whole buffer loaded and `LEN` fixed. -/
def State.load (bytes : List Byte) : State :=
  { State.reset with mem := Memory.loadAt [] 0 bytes, len := bytes.length }

/-- R150: reset applied in any state: every register at its value of R24 and both traces empty; the loaded buffer stays
(notes/assumptions/15.md). -/
def State.applyReset (s : State) : State := { State.reset with mem := s.mem, len := s.len }

/-- The buffer's bytes from the cursor to its end, in order. -/
def State.remaining (s : State) : List Byte :=
  (List.range (s.len - s.cur)).map fun j => s.mem.read (s.cur + j)

end Sys2Proof.Machine
end

