-- ==== Sys2Proof/Machine/Ports.lean ====
section
/-! DEFINITION. The ports of the hardware form. DEC's buses of R70: the opcode code of R81, the counts, and the operand on 32
bits as R80 builds it by sign and zero extension. And the wires of the command port of R141. -/

namespace Sys2Proof.Machine

/-- DEC's outputs (R70). -/
structure DecOut where
  opcode : BitVec 3
  e : BitVec 3
  flen : BitVec 3
  operand : BitVec 32
  deriving DecidableEq, Repr

/-- R81: the 3-bit code of the `opcode` output (notes/assumptions/13.md). -/
def opcodeCode : Opcode → BitVec 3
  | .dx => 0#3
  | .dy => 1#3
  | .dt => 2#3
  | .pen => 3#3
  | .clear => 4#3
  | .key => 5#3
  | .col => 6#3
  | .invalid => 7#3

/-- R80: the operand bus. `k` is the number of bytes gathered, 0 .. 4, and byte `j` is ignored when `j > k`. -/
def operandBus (h : Byte) (k : Fin 5) (ext1 ext2 ext3 ext4 : Byte) : BitVec 32 :=
  match (hdrSel h).toNat with
  | 0 => (hdrImm h).signExtend 32
  | 1 => (hdrImm h).signExtend 32
  | 2 => (hdrImm h).zeroExtend 32
  | _ =>
    match k with
    | 0 => BitVec.ofInt 32 emptyPayloadOperand
    | 1 => ext1.signExtend 32
    | 2 => (ext1 ++ ext2).signExtend 32
    | 3 => (ext1 ++ ext2 ++ ext3).signExtend 32
    | 4 => ext1 ++ ext2 ++ ext3 ++ ext4

/-- R70: DEC, a pure function of its ports. -/
def dec (h : Byte) (k : Fin 5) (ext1 ext2 ext3 ext4 : Byte) : DecOut where
  opcode := opcodeCode (classify h)
  e := BitVec.ofNat 3 (extraCount h)
  flen := BitVec.ofNat 3 (frameLength h)
  operand := operandBus h k ext1 ext2 ext3 ext4

/-- R141: the opcode whose frame sends a command. -/
def Command.opcode : Command → Opcode
  | .line _ _ _ _ => .dy
  | .clear => .clear
  | .pause _ => .dt
  | .key => .key
  | .colour _ => .col

/-- `cmd_kind` (R141). DESIGN CHOICE: the spec numbers no kind; the model takes R81's code of the opcode that sends the command
(notes/assumptions/21.md). -/
def Command.kind (c : Command) : BitVec 3 := opcodeCode c.opcode

/-- The arguments of a command on the lanes `cmd_a`, `cmd_b`, `cmd_c`, `cmd_d`, in the order of R20. DESIGN CHOICE: a pause is
zero-extended and a colour sign-extended to the lane's 64 bits (notes/assumptions/21.md). -/
def Command.arguments : Command → List (BitVec 64)
  | .line x0 y0 x1 y1 => [x0, y0, x1, y1]
  | .clear => []
  | .pause ms => [BitVec.ofNat 64 ms]
  | .key => []
  | .colour code => [BitVec.ofInt 64 code]

/-- The outputs of the command port (R141). -/
structure CmdPort where
  valid : Bool
  kind : BitVec 3
  a : BitVec 64
  b : BitVec 64
  c : BitVec 64
  d : BitVec 64
  deriving DecidableEq, Repr

/-- Lane `j` of the command port at a cursor: its argument where there is one, else a free value. -/
def cmdLane (cur : Nat) (args : List (BitVec 64)) (j : Nat) : BitVec 64 := (args[j]?).getD (Config.unusedLane j cur)

/-- R141: the wires of the port at a cursor, with a command presented or none. -/
def cmdWires (cur : Nat) (cmd : Option Command) : CmdPort :=
  let args := match cmd with
    | some c => c.arguments
    | none => []
  { valid := cmd.isSome
    kind := match cmd with
      | some c => c.kind
      | none => Config.idleKind cur
    a := cmdLane cur args 0
    b := cmdLane cur args 1
    c := cmdLane cur args 2
    d := cmdLane cur args 3 }

end Sys2Proof.Machine
end

