-- ==== Sys2Proof/Machine/Handshake.lean ====
section
/-! DEFINITION. The machine in its hardware form: the command port's handshake, the reset input and the invalid pulse around
`step` (41_sequencer.md R100, 60_exceptions.md R130, R141, 70_reset_and_hazards.md R150, R160, R161). The core machine stays the
one of Step.lean; what this adds is the environment's part of a run (notes/assumptions/10.md, 16.md, 22.md). -/

namespace Sys2Proof.Machine

/-- What the environment gives the machine between two steps: reset (R150) and the completion of the outstanding command
(R100). There is no other input (R134, R161). -/
structure Inputs where
  reset : Bool
  cmdReady : Bool
  deriving DecidableEq, Repr

/-- The core's state and the command presented at the port that the surface has not completed yet. The core's is the state before
the step that sends that command: the step completes with the command (notes/assumptions/22.md). -/
structure PortState where
  core : State
  outstanding : Option Command
  deriving DecidableEq, Repr

/-- The command a step emitted: what follows the old command trace in the new one (R20: at most one). -/
def emitted (s t : State) : Option Command := t.commands[s.commands.length]?

/-- The report a step made, the one-step pulse `invalid` with its side buses (R130). -/
def reported (s t : State) : Option Report := t.reports[s.reports.length]?

/-- The command that the frame at the cursor sends, if it sends one. -/
def State.nextCommand (s : State) : Option Command :=
  match step s with
  | .next t => emitted s t
  | .fault _ => none
  | .refused _ => none

/-- One round without reset, where `t` is the state that the core's step answers. A step that sends a command presents it first and
completes when the surface does, so until then `CUR`, the registers and both traces hold their values from BEFORE the step; a step
that sends none completes at once. DEDUCED: R100 says "unchanged" and not of which values; R90 and R135 put the command before the
register and cursor updates, R117 completes the step on the key press, and R152 and U10 keep such a run from `DONE`
(notes/assumptions/22.md). DESIGN CHOICE: `cmd_ready` counts from the round after the one that presents the command
(notes/assumptions/16.md). -/
def PortState.round (ready : Bool) (p : PortState) (t : State) : PortState :=
  match p.outstanding with
  | some _ => if ready then { core := t, outstanding := none } else p
  | none =>
    match emitted p.core t with
    | some c => { p with outstanding := some c }
    | none => { core := t, outstanding := none }

/-- R100, R150: reset wins, then an outstanding command holds the machine until the surface completes it. -/
def portStep (inp : Inputs) (p : PortState) : Host.Outcome PortState Fault Refusal :=
  if inp.reset then .next { core := p.core.applyReset, outstanding := none }
  else
    match step p.core with
    | .next t => .next (p.round inp.cmdReady t)
    | .fault f => .fault f
    | .refused r => .refused r

/-- R152, R117, U10: the run status of the hardware form: not `DONE` before the last command is completed
(notes/assumptions/22.md). -/
def PortState.status (p : PortState) : Status :=
  match p.outstanding with
  | some _ => .running
  | none => p.core.status

/-- Every command the surface has been given, oldest first: the completed ones, then the one presented. -/
def PortState.issued (p : PortState) : List Command := p.core.commands ++ p.outstanding.toList

/-- R141: the command port's outputs. -/
def PortState.cmdPort (p : PortState) : CmdPort := cmdWires p.core.cur p.outstanding

/-- R100: the commands that the source calls blocking. -/
def Command.blocks : Command → Bool
  | .line _ _ _ _ => false
  | .clear => false
  | .pause _ => true
  | .key => true
  | .colour _ => false

end Sys2Proof.Machine
end

