-- ==== Sys2Proof/Machine/Reference.lean ====
section
/-! DEFINITION. The step in the form of the spec's own pseudocode (41_sequencer.md R90): DEC's triple of opcode, length and
operand handed to the execution unit. The model's `step` dispatches on frames instead; the statement that the two are
one machine is an obligation. -/

namespace Sys2Proof.Machine

/-- R95, and the table "Effects at a glance" of 43_extended_ops.md: the effect an opcode has with DEC's operand. -/
def applyOpcode (op : Opcode) (operand : Int) (h : Byte) (s : State) : State :=
  match op with
  | .dx => { s with x := addPos s.x operand }
  | .dy =>
    { s with
      y := addPos s.y operand
      px := s.x
      py := addPos s.y operand
      commands := if s.pen then s.commands ++ [.line s.px s.py s.x (addPos s.y operand)] else s.commands }
  | .dt => { s with commands := s.commands ++ [.pause (operand * 10).toNat] }
  | .pen => { s with pen := !s.pen }
  | .clear => { s with commands := s.commands ++ [.clear] }
  | .key => { s with commands := s.commands ++ [.key] }
  | .col => { s with commands := s.commands ++ [.colour operand] }
  | .invalid => { s with reports := s.reports ++ [.invalidInstruction s.cur h] }

/-- R90, line by line. -/
def pseudocodeStep (s : State) : State :=
  if s.cur ≥ s.len then s
  else
    let h := s.mem.read s.cur
    let k := min (extraCount h) (s.len - s.cur - 1)
    let ext := (List.range k).map fun j => s.mem.read (s.cur + (j + 1))
    let t := applyOpcode (classify h) (decOperand h ext) h s
    { t with cur := s.cur + frameLength h }

end Sys2Proof.Machine
end

