-- ==== Sys2Proof/Safety.lean ====
section
/-! DEFINITION. What counts as a safe run, in the terms the statements use: frames, the invariant that every step keeps, the
range in which positions are exact integers, and runs of the port form. -/

namespace Sys2Proof.Machine

/-- The buffer and its length read as before, at every offset (R22, R35). -/
def SameBuffer (s t : State) : Prop := t.len = s.len ∧ ∀ a, t.memRead a = s.memRead a

/-- A command whose arguments the machine can produce: a pause of 0, 10, .., 630 (R107), a colour in the 32-bit signed
range (R20). -/
def Command.inRange : Command → Prop
  | .line _ _ _ _ => True
  | .clear => True
  | .pause ms => ∃ n, n < 64 ∧ ms = n * 10
  | .key => True
  | .colour c => -2 ^ 31 ≤ c ∧ c < 2 ^ 31

/-- The offset a report names. -/
def Report.offset : Report → Nat
  | .invalidInstruction cur _ => cur

/-- The header a report names. -/
def Report.header : Report → Byte
  | .invalidInstruction _ h => h

/-- What holds of the machine at the start of every step of a run, and in every state that a step answers from such a
state. -/
structure State.Inv (s : State) : Prop where
  /-- The buffer keeps its canonical form. -/
  canonical : s.mem.wf = true
  /-- No cell lies outside the buffer (R30). -/
  inside : s.mem.below s.len = true
  /-- The cursor passes the buffer's end by at most 4 (R96). -/
  cursor : s.cur ≤ s.len + 4
  /-- Only `DY` writes `Y` and it copies it, so the anchor's `y` is the current one (R14, R106). -/
  anchor : s.py = s.y
  /-- Every command sent has arguments in range (R20, R107). -/
  commands : ∀ c ∈ s.commands, c.inRange
  /-- Every report names an offset already passed, the byte there, and that byte is a reserved header (R130). -/
  reported : ∀ r ∈ s.reports,
    r.offset < s.cur ∧ r.offset < s.len ∧ s.mem.read r.offset = r.header ∧ classify r.header = .invalid
  /-- Reports stand in stream order, at most one an offset (R137). -/
  ordered : s.reports.Pairwise fun a b => a.offset < b.offset

/-- A coordinate whose magnitude is at most 32 for each byte the cursor has passed (R108). -/
def Pos.within (p : Pos) (cur : Nat) : Prop := -(32 * cur : Int) ≤ p.toInt ∧ p.toInt ≤ 32 * cur

/-- R108: the positions a run can have reached; below `LEN = 2^57` none of them is near the ends of the 64-bit range. -/
structure State.Exact (s : State) : Prop where
  x : Pos.within s.x s.cur
  y : Pos.within s.y s.cur
  px : Pos.within s.px s.cur
  py : Pos.within s.py s.cur

/-- What holds of the hardware form in every round: the core's invariant, and a command outstanding is the one that the frame at
the cursor sends (R100). -/
structure PortState.Inv (p : PortState) : Prop where
  core : p.core.Inv
  command : ∀ c, p.outstanding = some c → p.core.nextCommand = some c

/-- A run of the port form over a list of inputs, stopping at the first fault or refusal. -/
def portRun : List Inputs → PortState → Host.Outcome PortState Fault Refusal
  | [], p => .next p
  | inp :: inps, p =>
    match portStep inp p with
    | .next q => portRun inps q
    | .fault f => .fault f
    | .refused r => .refused r

end Sys2Proof.Machine
end

