-- ==== Sys2Proof/Certificates/Slice0/Obligations.lean ====
section
/-! DEFINITION. The statements about the model, for the provers. Each docstring names the rule of spec/ it formalises; a
clause that rests on a choice of the spec's own or of the model's says so. -/

open Sys2Proof Sys2Proof.Machine

/-! ### Encoding and DEC -/

/-- 30_encoding.md R50, R52, R56: a full frame, followed by anything, decodes to itself and leaves what follows. -/
def Obligations.FullFrameRoundTrip : Prop :=
  ∀ (i : Instr) (rest : List Byte), i.wf = true → i.full = true → decode (encode i ++ rest) = .ok (i, rest)

/-- R50, R56, R93: every well-formed frame, a truncated one too, decodes to itself where the buffer ends with it. -/
def Obligations.LastFrameRoundTrip : Prop :=
  ∀ i : Instr, i.wf = true → decode (encode i) = .ok (i, [])

/-- R53, R56: decoding loses no bit: what it answers is well formed, encodes to the bytes read, and is truncated only where
the bytes end. -/
def Obligations.DecodedFrameEncodesBack : Prop :=
  ∀ (bs : List Byte) (i : Instr) (rest : List Byte), decode bs = .ok (i, rest) →
    i.wf = true ∧ encode i ++ rest = bs ∧ (i.full = false → rest = [])

/-- 30_encoding.md R50, R56, R59: words of every family written out from the encoding tables decode to their frames. -/
def Obligations.EncodedWordsDecode : Prop :=
  decode [0b00110111#8] = .ok (.dx 0b110111#6, []) ∧
  decode [0b01000011#8] = .ok (.dy 0b000011#6, []) ∧
  decode [0b10100000#8] = .ok (.dt 0b100000#6, []) ∧
  decode [0b11000011#8] = .ok (.pen .e0 [], []) ∧
  decode [0b11010100#8, 0x99#8] = .ok (.clear .e1 [0x99#8], []) ∧
  decode [0b11110101#8, 1#8, 2#8, 3#8, 4#8, 0xC3#8] = .ok (.key .e4 [1#8, 2#8, 3#8, 4#8], [0xC3#8]) ∧
  decode [0b11100110#8, 0xCE#8, 0x60#8] = .ok (.col .e2 [0xCE#8, 0x60#8], []) ∧
  decode [0b11000000#8] = .ok (.rsvd0 .e0 [], []) ∧
  decode [0b11101011#8, 7#8] = .ok (.rsvd11 .e2 [7#8], []) ∧
  decode [] = .error .noHeaderByte

/-- 30_encoding.md R59: every line of the notation whose number is in its range assembles to one full frame of its opcode with that
operand or payload, `.byte` to its byte; a number out of range has no bytes; and a program's bytes are those of its lines in order.
The notation is the spec's own (D12; notes/assumptions/20.md). -/
def Obligations.AssembledLineMeansItsOperand : Prop :=
  (∀ n : Int,
    if -32 ≤ n ∧ n ≤ 31 then ∃ g h : Byte,
      assembleLine (.dx n) = some [g] ∧ classify g = .dx ∧ frameLength g = 1 ∧ decOperand g [] = n ∧
      assembleLine (.dy n) = some [h] ∧ classify h = .dy ∧ frameLength h = 1 ∧ decOperand h [] = n
    else assembleLine (.dx n) = none ∧ assembleLine (.dy n) = none) ∧
  (∀ n : Nat,
    if n ≤ 63 then ∃ h : Byte,
      assembleLine (.dt n) = some [h] ∧ classify h = .dt ∧ frameLength h = 1 ∧ decOperand h [] = n
    else assembleLine (.dt n) = none) ∧
  (∀ (e : ExtLen) (n : Int),
    let w := 8 * e.count
    if (e.count = 0 → n = 0) ∧ (0 < e.count → -2 ^ (w - 1) ≤ n ∧ n < 2 ^ (w - 1)) then ∃ (h : Byte) (ext : List Byte),
      assembleLine (.col e n) = some (h :: ext) ∧ classify h = .col ∧ ext.length = e.count ∧
      frameLength h = 1 + e.count ∧ decOperand h ext = n
    else assembleLine (.col e n) = none) ∧
  (∀ (e : ExtLen) (v : Nat),
    if v < 2 ^ (8 * e.count) then ∃ (ext : List Byte), ext.length = e.count ∧ packBE ext = v ∧
      assembleLine (.pen e v) = some (encode (.pen e ext)) ∧ assembleLine (.clear e v) = some (encode (.clear e ext)) ∧
      assembleLine (.key e v) = some (encode (.key e ext))
    else assembleLine (.pen e v) = none ∧ assembleLine (.clear e v) = none ∧ assembleLine (.key e v) = none) ∧
  (∀ (e : ExtLen) (x v : Nat),
    if x < 16 ∧ x ∉ [3, 4, 5, 6] ∧ v < 2 ^ (8 * e.count) then ∃ (h : Byte) (ext : List Byte),
      assembleLine (.inv e x v) = some (h :: ext) ∧ classify h = .invalid ∧ h.toNat % 16 = x ∧
      ext.length = e.count ∧ frameLength h = 1 + e.count ∧ packBE ext = v
    else assembleLine (.inv e x v) = none) ∧
  (∀ v : Nat, assembleLine (.byte v) = if v < 256 then some [BitVec.ofNat 8 v] else none) ∧
  (∀ (ls ms : List AsmLine) (bs cs : List Byte),
    assemble ls = some bs → assemble ms = some cs → assemble (ls ++ ms) = some (bs ++ cs)) ∧
  (∀ l : AsmLine, assemble [l] = assembleLine l) ∧
  ∀ ls : List AsmLine, assemble ls = none ↔ ∃ l ∈ ls, assembleLine l = none

/-- R71: the opcode of every header byte, from its bits 7-6 and 3-0. -/
def Obligations.ClassifierFollowsHeaderBits : Prop :=
  ∀ h : Byte, classify h =
    if h.toNat / 64 = 0 then .dx
    else if h.toNat / 64 = 1 then .dy
    else if h.toNat / 64 = 2 then .dt
    else if h.toNat % 16 = 3 then .pen
    else if h.toNat % 16 = 4 then .clear
    else if h.toNat % 16 = 5 then .key
    else if h.toNat % 16 = 6 then .col
    else .invalid

/-- R72, R73: the extra-byte count and the frame length of every header byte, from its bits 7-4. -/
def Obligations.FrameLengthFollowsSelector : Prop :=
  ∀ h : Byte,
    extraCount h =
      (if h.toNat / 64 ≠ 3 then 0 else if h.toNat / 16 % 4 = 3 then 4 else h.toNat / 16 % 4) ∧
    frameLength h = 1 + extraCount h ∧ extraCount h ≠ 3

/-- 40_decoder.md section 5, law 7 (R71, R72): of an extended header, bits 5-4 alone decide the length and bits 3-0 alone the
opcode; and an opcode is compact just below 0xC0 (law 2). -/
def Obligations.LengthAndOpcodeBitsAreIndependent : Prop :=
  ∀ g h : Byte, 192 ≤ g.toNat → 192 ≤ h.toNat →
    (g.toNat / 16 = h.toNat / 16 → frameLength g = frameLength h) ∧
    (g.toNat % 16 = h.toNat % 16 → classify g = classify h) ∧
    (classify g ≠ .dx ∧ classify g ≠ .dy ∧ classify g ≠ .dt)

/-- R75: the sign conversion of a `b`-bit value, its two cases and its range. -/
def Obligations.SignConversionOfField : Prop :=
  ∀ b v : Nat, 1 ≤ b → v < 2 ^ b →
    (2 ^ (b - 1) ≤ v → signed v b = (v : Int) - 2 ^ b) ∧
    (v < 2 ^ (b - 1) → signed v b = v) ∧
    -(2 ^ (b - 1) : Int) ≤ signed v b ∧ signed v b < 2 ^ (b - 1)

/-- 40_decoder.md R75's derived bus form: the `n`-bit pattern of the converted value is the field with its top bit
copied upward, and the field is recovered modulo `2^b` (section 5, law 3). -/
def Obligations.SignConversionIsSignExtension : Prop :=
  ∀ b n v : Nat, 1 ≤ b → b ≤ n → v < 2 ^ b →
    BitVec.ofInt n (signed v b) = (BitVec.ofNat b v).signExtend n ∧ signed v b % 2 ^ b = v

/-- R76: the operand of a compact frame, signed for `DX` and `DY` and unsigned for `DT`, whatever the extension inputs. -/
def Obligations.CompactOperand : Prop :=
  ∀ (h : Byte) (ext : List Byte),
    (h.toNat < 128 → decOperand h ext = if h.toNat % 64 < 32 then (h.toNat % 64 : Int) else (h.toNat % 64 : Int) - 64) ∧
    (128 ≤ h.toNat → h.toNat < 192 → decOperand h ext = (h.toNat % 64 : Int))

/-- R77: an extended frame that declares no extension bytes has operand 0, for every `xop`. -/
def Obligations.ExtendedOperandWithoutExtension : Prop :=
  ∀ h : Byte, 192 ≤ h.toNat → h.toNat / 16 % 4 = 0 → decOperand h [] = 0

/-- 40_decoder.md R79, the case `k = 0 < E`: the operand of an extended frame truncated to its header is 0. The spec marks
this as its own decision (92_eei_decisions.md D5; notes/assumptions/8.md). -/
def Obligations.TruncatedToHeaderOperandIsZero : Prop :=
  ∀ h : Byte, 192 ≤ h.toNat → h.toNat / 16 % 4 ≠ 0 → decOperand h [] = 0

/-- R78: the operand of an extended frame whose extension bytes are all present: packed big-endian, sign-converted at their
own width, for every `xop`; in its range; and negative exactly when bit 7 of the first byte is set. -/
def Obligations.FullPayloadOperand : Prop :=
  ∀ (h b : Byte) (bs : List Byte), 192 ≤ h.toNat → extraCount h = bs.length + 1 →
    let p := (b :: bs).foldl (fun (p : Nat) (c : Byte) => p * 256 + c.toNat) 0
    let w := 8 * (bs.length + 1)
    decOperand h (b :: bs) = (if p < 2 ^ (w - 1) then (p : Int) else (p : Int) - 2 ^ w) ∧
    -(2 ^ (w - 1) : Int) ≤ decOperand h (b :: bs) ∧ decOperand h (b :: bs) < 2 ^ (w - 1) ∧
    (decOperand h (b :: bs) < 0 ↔ 128 ≤ b.toNat)

/-- 40_decoder.md R79, for `1 <= k < E`: a truncated frame's operand is that of the bytes present at their own width, so
it does not depend on how many were declared and is no zero-padded or shifted value. -/
def Obligations.TruncatedPayloadOperand : Prop :=
  ∀ (h b : Byte) (bs : List Byte), 192 ≤ h.toNat → bs.length + 1 < extraCount h →
    let p := (b :: bs).foldl (fun (p : Nat) (c : Byte) => p * 256 + c.toNat) 0
    decOperand h (b :: bs) =
      if b.toNat < 128 then (p : Int) else (p : Int) - 2 ^ (8 * (bs.length + 1))

/-- 40_decoder.md section 5, law 6 (from R78), at every width: a payload of a given length is recovered from its operand. -/
def Obligations.PayloadRecoveredFromOperand : Prop :=
  ∀ a b : List Byte, a.length = b.length → payloadOperand a = payloadOperand b → a = b

/-- 30_encoding.md R58 and 43_extended_ops.md R118: a payload extended upward by its own sign has the same operand, so a
colour has encodings of several lengths. -/
def Obligations.SignPaddedPayloadSameOperand : Prop :=
  ∀ (b : Byte) (bs : List Byte),
    payloadOperand ((if b.toNat < 128 then 0x00#8 else 0xFF#8) :: b :: bs) = payloadOperand (b :: bs)

/-- 40_decoder.md R70, R80: every operand fits 32 bits, whatever the header and up to four gathered bytes. -/
def Obligations.OperandFitsBus : Prop :=
  ∀ (h : Byte) (ext : List Byte), ext.length ≤ 4 → -2 ^ 31 ≤ decOperand h ext ∧ decOperand h ext < 2 ^ 31

/-- 40_decoder.md R70, R80, R81: DEC's ports carry the opcode's code, the counts and the operand's integer; the numbering is
the spec's choice (D6). -/
def Obligations.DecPortsCarryTriple : Prop :=
  ∀ (h : Byte) (k : Fin 5) (b1 b2 b3 b4 : Byte),
    let out := dec h k b1 b2 b3 b4
    out.operand.toInt = decOperand h ([b1, b2, b3, b4].take k.val) ∧
    out.e.toNat = extraCount h ∧ out.flen.toNat = frameLength h ∧
    (h.toNat < 192 → out.opcode.toNat = h.toNat / 64) ∧
    (192 ≤ h.toNat → out.opcode.toNat = if 3 ≤ h.toNat % 16 ∧ h.toNat % 16 ≤ 6 then h.toNat % 16 else 7)

/-! ### SEQ -/

/-- R93: a running machine's fetch gives the header at the cursor and the `min(E, LEN - CUR - 1)` bytes after it, in ascending
order; no other byte is asked for. -/
def Obligations.FetchGathersBytesPresent : Prop :=
  ∀ s : State, s.cur < s.len →
    ∃ (h : Byte) (ext : List Byte), s.fetchFrame = .ok (h, ext) ∧ s.memRead s.cur = .ok h ∧
      ext.length = min (extraCount h) (s.len - s.cur - 1) ∧
      (∀ (j : Nat) (hj : j < ext.length), s.memRead (s.cur + (j + 1)) = .ok ext[j])

/-- 20_memory.md R30, R31: a read inside the buffer answers its byte; a read at or beyond `LEN` has no meaning, and the
model's choice is a fault of its own (notes/assumptions/5.md). -/
def Obligations.ReadsStayInsideBuffer : Prop :=
  ∀ (bytes : List Byte) (a : Nat),
    (∀ h : a < bytes.length, (State.load bytes).memRead a = .ok bytes[a]) ∧
    (bytes.length ≤ a → (State.load bytes).memRead a = .error (.readOutsideBuffer a))

/-- 41_sequencer.md R90: when the bytes from the cursor to the buffer's end decode to a frame, a step is that frame's meaning,
then the advance by its declared length. -/
def Obligations.StepRunsDecodedFrame : Prop :=
  ∀ (s : State) (i : Instr) (rest : List Byte), decode s.remaining = .ok (i, rest) →
    i.wf = true ∧ s.memRead s.cur = .ok i.header ∧
    ∃ t, exec i s = .next t ∧ step s = .next { t with cur := s.cur + i.frameLength }

/-- 70_reset_and_hazards.md R156, 41_sequencer.md R90: over a canonical buffer, a frame that the host places where the machine
fetches is the frame the next step runs, whole (notes/assumptions/3.md). -/
def Obligations.PlacedWordRunsNext : Prop :=
  ∀ (s : State) (nbits w : Nat) (i : Instr), s.mem.wf = true → decodeTableWord nbits w = some i →
    i.full = true ∧
    ∃ t, exec i (s.withFetchWord nbits w) = .next t ∧
      step (s.withFetchWord nbits w) = .next { t with cur := s.cur + i.frameLength }

/-- 41_sequencer.md R90, R95 and the table "Effects at a glance": the step is the spec's pseudocode, on every state. That a `DONE` state
is answered unchanged, where R90 takes no step, is the model's choice (notes/assumptions/2.md); the wrap of a position, the operand of
a frame cut to its header and the report's payload are the spec's decisions D8, D5, D7 (notes/assumptions/7.md, 8.md, 9.md). -/
def Obligations.StepIsPseudocode : Prop :=
  ∀ s : State, step s = .next (pseudocodeStep s)

/-- 41_sequencer.md R91, 10_state.md R25: in `DONE` nothing changes. That `step` answers the same state there is the model's
form of "takes no step" (notes/assumptions/2.md). -/
def Obligations.DoneStaysDone : Prop :=
  ∀ s : State, s.len ≤ s.cur → s.status = .done ∧ step s = .next s

/-- 60_exceptions.md R132, 10_state.md R22, 41_sequencer.md R97: a run of any length never faults and never refuses, leaves
every byte of the buffer as it was, and never moves the cursor back. That a state is answered for every `n`, past `DONE` too where R91
takes no step, is the model's choice (notes/assumptions/2.md). -/
def Obligations.RunNeverStopsNorWritesBuffer : Prop :=
  ∀ (n : Nat) (s : State), ∃ t, core.run n s = .next t ∧ SameBuffer s t ∧ s.cur ≤ t.cur

/-- R96: a step advances the cursor by the length the header declares, whatever the opcode and whether or not the frame is
truncated; it passes the buffer's end by at most 4. -/
def Obligations.CursorAdvancesByDeclaredLength : Prop :=
  ∀ (s : State) (h : Byte), s.memRead s.cur = .ok h →
    ∃ t, step s = .next t ∧ t.cur = s.cur + (1 + extraCount h) ∧ s.cur < t.cur ∧
      (s.len < s.cur + (1 + extraCount h) → 1 ≤ t.cur - s.len ∧ t.cur - s.len ≤ 4)

/-- 41_sequencer.md R97: from any state the machine is done after at most as many steps as bytes remain, and no sooner than
a fifth of them. The first clause counts on through `DONE`, where a step answers the same state: the model's choice
(notes/assumptions/2.md). -/
def Obligations.RunReachesDone : Prop :=
  ∀ s : State,
    (∃ t, core.run (s.len - s.cur) s = .next t ∧ t.status = .done) ∧
    ∀ (n : Nat) (t : State), core.run n s = .next t → t.status = .done → s.len ≤ s.cur + 5 * n

/-- 20_memory.md R35, R36, 41_sequencer.md R93: a step depends on no byte of the buffer but those of its own frame. -/
def Obligations.StepReadsOnlyItsFrame : Prop :=
  ∀ (s t : State) (m : Memory) (h : Byte),
    s.memRead s.cur = .ok h → step s = .next t →
    (∀ a, s.cur ≤ a → a < s.cur + frameLength h → a < s.len → m.read a = s.mem.read a) →
    step { s with mem := m } = .next { t with mem := m }

/-- 41_sequencer.md R98, 40_decoder.md R74: two runs over the same buffer from the same cursor read headers at the same
offsets, whatever their registers and traces hold. -/
def Obligations.FrameBoundariesDependOnBufferAlone : Prop :=
  ∀ (n : Nat) (s s' t t' : State), s.cur = s'.cur → s.len = s'.len → s.mem = s'.mem →
    core.run n s = .next t → core.run n s' = .next t' → t.cur = t'.cur

/-! ### The execution unit, instruction by instruction -/

/-- R105: `DX` adds its operand to `X` and does nothing else. The sum is the mathematical one where it fits 64 bits; what
happens beyond is PositionSumWraps. -/
def Obligations.DxMovesX : Prop :=
  ∀ (imm : Imm6) (s : State),
    let operand : Int := if imm.toNat < 32 then imm.toNat else (imm.toNat : Int) - 64
    ∃ v : Pos, exec (.dx imm) s = .next { s with x := v } ∧
      (-2 ^ 63 ≤ s.x.toInt + operand → s.x.toInt + operand < 2 ^ 63 → v.toInt = s.x.toInt + operand)

/-- R106: `DY` adds its operand to `Y`, with the pen down emits one line from the OLD anchor to the NEW position, and copies
the new position to the anchor in both cases; `X` and the pen stay. -/
def Obligations.DyMovesDrawsAndRecords : Prop :=
  ∀ (imm : Imm6) (s : State),
    let operand : Int := if imm.toNat < 32 then imm.toNat else (imm.toNat : Int) - 64
    ∃ v : Pos,
      exec (.dy imm) s = .next { s with
        y := v, px := s.x, py := v,
        commands := s.commands ++ (if s.pen then [.line s.px s.py s.x v] else []) } ∧
      (-2 ^ 63 ≤ s.y.toInt + operand → s.y.toInt + operand < 2 ^ 63 → v.toInt = s.y.toInt + operand)

/-- 42_compact_ops.md R108: what `DX` and `DY` store is the sum on 64 bits, and a sum beyond them wraps modulo 2^64. The source is
silent; the wrap is the spec's decision D8 (notes/assumptions/7.md). -/
def Obligations.PositionSumWraps : Prop :=
  (∀ (p : Pos) (n : Int), (addPos p n).toInt = (p.toInt + n + 2 ^ 63) % 2 ^ 64 - 2 ^ 63) ∧
  ∀ (imm : Imm6) (s : State),
    let operand : Int := if imm.toNat < 32 then imm.toNat else (imm.toNat : Int) - 64
    exec (.dx imm) s = .next { s with x := addPos s.x operand } ∧
    ∃ t, exec (.dy imm) s = .next t ∧ t.y = addPos s.y operand ∧ t.py = addPos s.y operand ∧
      (s.pen = true → t.commands = s.commands ++ [.line s.px s.py s.x (addPos s.y operand)])

/-- R107: `DT` emits one pause of ten times its unsigned operand, `DT 0` too, and writes no register. -/
def Obligations.DtEmitsPause : Prop :=
  ∀ (imm : Imm6) (s : State),
    exec (.dt imm) s = .next { s with commands := s.commands ++ [.pause (10 * imm.toNat)] }

/-- R115: `PEN` toggles the pen and does nothing else, at every length and whatever its payload; two of them cancel. -/
def Obligations.PenToggles : Prop :=
  ∀ (e e' : ExtLen) (ext ext' : List Byte) (s : State),
    exec (.pen e ext) s = .next { s with pen := if s.pen then false else true } ∧
    ∀ t, exec (.pen e ext) s = .next t → exec (.pen e' ext') t = .next s

/-- R116, R117: `CLEAR` and `KEY` emit their one command and write no register, at every length and whatever their
payload. -/
def Obligations.ClearAndKeyEmit : Prop :=
  ∀ (e : ExtLen) (ext : List Byte) (s : State),
    exec (.clear e ext) s = .next { s with commands := s.commands ++ [.clear] } ∧
    exec (.key e ext) s = .next { s with commands := s.commands ++ [.key] }

/-- R118: `COL` emits its signed operand, 0 for a frame of one byte, else the gathered bytes packed big-endian and converted at
their own width, and writes no register. -/
def Obligations.ColEmitsSignedPayload : Prop :=
  ∀ s : State,
    exec (.col .e0 []) s = .next { s with commands := s.commands ++ [.colour 0] } ∧
    ∀ (e : ExtLen) (b : Byte) (bs : List Byte), bs.length + 1 ≤ e.count →
      let p := (b :: bs).foldl (fun (p : Nat) (c : Byte) => p * 256 + c.toNat) 0
      exec (.col e (b :: bs)) s = .next { s with
        commands := s.commands ++
          [.colour (if p < 2 ^ (8 * (bs.length + 1) - 1) then (p : Int) else (p : Int) - 2 ^ (8 * (bs.length + 1)))] }

/-- 40_decoder.md R79 and 43_extended_ops.md R118, for a `COL` header with `L != 0` that is the buffer's last byte: it emits
colour 0 (the spec's decision D5; notes/assumptions/8.md). -/
def Obligations.ColTruncatedToHeaderEmitsZero : Prop :=
  ∀ (e : ExtLen) (s : State), exec (.col e []) s = .next { s with commands := s.commands ++ [.colour 0] }

/-- 43_extended_ops.md R119, 60_exceptions.md R130: each of the twelve reserved frames, at every length, appends one report
with the cursor and its header byte and changes nothing else. The report's payload is the spec's decision D7
(notes/assumptions/9.md). -/
def Obligations.ReservedFramesReportOnly : Prop :=
  ∀ (ext : List Byte) (s : State),
    ∀ p ∈ [(ExtLen.e0, 0xC0), (ExtLen.e1, 0xD0), (ExtLen.e2, 0xE0), (ExtLen.e4, 0xF0)],
      let reports (xop : Nat) : Host.Outcome State Fault Refusal :=
        .next { s with reports := s.reports ++ [.invalidInstruction s.cur (BitVec.ofNat 8 (p.2 + xop))] }
      exec (.rsvd0 p.1 ext) s = reports 0 ∧ exec (.rsvd1 p.1 ext) s = reports 1 ∧
      exec (.rsvd2 p.1 ext) s = reports 2 ∧ exec (.rsvd7 p.1 ext) s = reports 7 ∧
      exec (.rsvd8 p.1 ext) s = reports 8 ∧ exec (.rsvd9 p.1 ext) s = reports 9 ∧
      exec (.rsvd10 p.1 ext) s = reports 10 ∧ exec (.rsvd11 p.1 ext) s = reports 11 ∧
      exec (.rsvd12 p.1 ext) s = reports 12 ∧ exec (.rsvd13 p.1 ext) s = reports 13 ∧
      exec (.rsvd14 p.1 ext) s = reports 14 ∧ exec (.rsvd15 p.1 ext) s = reports 15

/-- 10_state.md R11, R13 to R15, R22 and the table of registers written (43_extended_ops.md section 3): what each frame
leaves unchanged: every frame the cursor and every byte of the buffer; `DX` all but `X`; `DY` all but `Y`, the anchor and the
command trace; `DT`, `CLEAR`, `KEY`, `COL` all but the command trace; `PEN` all but the pen; the reserved ones all but the report
trace. -/
def Obligations.FrameOfEveryInstruction : Prop :=
  ∀ (i : Instr) (s t : State), exec i s = .next t →
    t.cur = s.cur ∧ SameBuffer s t ∧
    (classify i.header ≠ .dx → t.x = s.x) ∧
    (classify i.header ≠ .dy → t.y = s.y ∧ t.px = s.px ∧ t.py = s.py) ∧
    (classify i.header ≠ .pen → t.pen = s.pen) ∧
    (classify i.header ∈ [.dx, .pen, .invalid] → t.commands = s.commands) ∧
    (classify i.header ≠ .invalid → t.reports = s.reports)

/-! ### Whole-machine rules -/

/-- 10_state.md R13, R14, R15: a step changes `X` only on a header 0x00 to 0x3F, `Y` and the anchor only on 0x40 to 0x7F, and
the pen just on `PEN`'s four headers. -/
def Obligations.RegistersHaveTheirOneWriter : Prop :=
  ∀ (s t : State) (h : Byte), s.memRead s.cur = .ok h → step s = .next t →
    (t.x ≠ s.x → h.toNat < 64) ∧
    ((t.y ≠ s.y ∨ t.px ≠ s.px ∨ t.py ≠ s.py) → 64 ≤ h.toNat ∧ h.toNat < 128) ∧
    (t.pen ≠ s.pen ↔ h.toNat ∈ [0xC3, 0xD3, 0xE3, 0xF3])

/-- 60_exceptions.md R135, 10_state.md R20, R21: a step appends at most one event, a command or a report, and takes none
away. -/
def Obligations.AtMostOneEventAStep : Prop :=
  ∀ s t : State, step s = .next t →
    ∃ (cs : List Command) (rs : List Report),
      t.commands = s.commands ++ cs ∧ t.reports = s.reports ++ rs ∧ cs.length + rs.length ≤ 1

/-- 10_state.md R20, R21: the traces are write-only: no register, and no event a step appends, depends on what they hold. -/
def Obligations.TracesAreWriteOnly : Prop :=
  ∀ (s t : State) (cs : List Command) (rs : List Report), step s = .next t →
    step { s with commands := cs, reports := rs } = .next { t with
      commands := cs ++ t.commands.drop s.commands.length
      reports := rs ++ t.reports.drop s.reports.length }

/-- 43_extended_ops.md R119, 60_exceptions.md R130, R136: a step over a reserved header reports it with its offset, touches
nothing else and skips the whole declared frame. The report's payload is the spec's decision D7 (notes/assumptions/9.md). -/
def Obligations.InvalidFrameIsSkippedWhole : Prop :=
  ∀ (s : State) (h : Byte), s.memRead s.cur = .ok h → 192 ≤ h.toNat → h.toNat % 16 ∉ [3, 4, 5, 6] →
    step s = .next { s with
      cur := s.cur + (1 + extraCount h)
      reports := s.reports ++ [.invalidInstruction s.cur h] }

/-- 60_exceptions.md R131, 40_decoder.md R79: a `COL` frame cut short by the buffer's end, with at least one byte present, emits the
colour of the bytes present and ends the run; nothing is reported. -/
def Obligations.TruncatedColUsesBytesPresent : Prop :=
  ∀ (s : State) (h : Byte), s.memRead s.cur = .ok h → h.toNat ∈ [0xE6, 0xF6] →
    s.cur + 1 < s.len → s.len < s.cur + frameLength h →
    ∃ t, step s = .next t ∧ t.status = .done ∧ t.reports = s.reports ∧
      t.commands = s.commands ++ [.colour (payloadOperand s.remaining.tail)]

/-- 42_compact_ops.md R105, R106 (the source's scenario S7, S10): a `DX` then a `DY` with the pen down draw exactly one segment, from the
anchor to the point moved to in both coordinates. -/
def Obligations.DxThenDyDrawsOneDiagonal : Prop :=
  ∀ (s : State) (g h : Byte), s.memRead s.cur = .ok g → s.memRead (s.cur + 1) = .ok h →
    g.toNat < 64 → 64 ≤ h.toNat → h.toNat < 128 → s.pen = true →
    ∃ t, core.run 2 s = .next t ∧
      t.x = addPos s.x (decOperand g []) ∧ t.y = addPos s.y (decOperand h []) ∧
      t.commands = s.commands ++ [.line s.px s.py t.x t.y]

/-- 10_state.md R14: in a run that executes no further `DY`, the anchor stays the position that the last `DY` left; and in a run
from its start that has executed none, it stays `(0, 0)`. -/
def Obligations.AnchorIsPositionAtLastDy : Prop :=
  (∀ (s t u : State) (h : Byte) (n : Nat), s.memRead s.cur = .ok h → classify h = .dy → step s = .next t →
    core.run n t = .next u →
    (∀ m v g, m < n → core.run m t = .next v → v.memRead v.cur = .ok g → classify g ≠ .dy) →
    u.px = t.x ∧ u.py = t.y) ∧
  ∀ (bytes : List Byte) (u : State) (n : Nat), core.run n (State.load bytes) = .next u →
    (∀ m v g, m < n → core.run m (State.load bytes) = .next v → v.memRead v.cur = .ok g → classify g ≠ .dy) →
    u.px = 0#64 ∧ u.py = 0#64

/-- 41_sequencer.md R100, with R107 and R117: a step emits a blocking command exactly when its header is a `DT` or a `KEY`. -/
def Obligations.BlockingCommandsComeFromDtAndKey : Prop :=
  ∀ (s t : State) (h : Byte), s.memRead s.cur = .ok h → step s = .next t →
    ((∃ c, emitted s t = some c ∧ c.blocks = true) ↔ (classify h = .dt ∨ classify h = .key))

/-- 60_exceptions.md R130: the report pulse of a step, and of a round of the hardware form: exactly when the header at the cursor is a
reserved one, with its offset and byte beside it. That payload is the spec's decision D7 (notes/assumptions/9.md). The clause on rounds
rests on the handshake of D9 in the model's form: its rounds (notes/assumptions/16.md), and that while a command is outstanding the
values held, and so the header read, are those from before its step (notes/assumptions/22.md). -/
def Obligations.ReportPulseExactlyOnReservedHeader : Prop :=
  (∀ (s t : State) (h : Byte), s.memRead s.cur = .ok h → step s = .next t →
    reported s t = if classify h = .invalid then some (.invalidInstruction s.cur h) else none) ∧
  ∀ (inp : Inputs) (p q : PortState) (h : Byte), p.Inv → inp.reset = false → p.core.memRead p.core.cur = .ok h →
    portStep inp p = .next q →
    reported p.core q.core = if classify h = .invalid then some (.invalidInstruction p.core.cur h) else none

/-! ### Reset, invariants and the hardware form -/

/-- R24: the registers after reset and at the start of a run over any loaded buffer; the run status is `RUNNING` just when the
buffer is not empty. -/
def Obligations.ResetValues : Prop :=
  ∀ (bytes : List Byte) (s : State), s = State.reset ∨ s = State.load bytes →
    s.cur = 0 ∧ s.x = 0#64 ∧ s.y = 0#64 ∧ s.px = 0#64 ∧ s.py = 0#64 ∧ s.pen = false ∧
    s.commands = [] ∧ s.reports = [] ∧ (s.status = .running ↔ 0 < s.len) ∧ (s.status = .done ↔ s.len = 0) ∧
    (State.load bytes).len = bytes.length

/-- 70_reset_and_hazards.md R150: reset from any state, a stalled one too, gives every register its reset value and keeps the
loaded buffer; the input is the spec's rendering (D16). Two clauses are the model's choice: that the buffer stays
(notes/assumptions/15.md), and that reset drops an outstanding command (notes/assumptions/16.md). -/
def Obligations.ResetFromAnyState : Prop :=
  ∀ (p : PortState) (ready : Bool),
    ∃ q, portStep { reset := true, cmdReady := ready } p = .next q ∧ q.outstanding = none ∧
      SameBuffer p.core q.core ∧ q.core.cur = 0 ∧ q.core.x = 0#64 ∧ q.core.y = 0#64 ∧ q.core.px = 0#64 ∧
      q.core.py = 0#64 ∧ q.core.pen = false ∧ q.core.commands = [] ∧ q.core.reports = []

/-- Canonical buffers that read the same are the same list, so equal machine states are equal data (the model's own form of
20_memory.md R30; notes/assumptions/4.md). -/
def Obligations.CanonicalBuffersAreEqual : Prop :=
  ∀ m n : Memory, m.wf = true → n.wf = true → (∀ a, m.read a = n.read a) → m = n

/-- The invariant, and that of the hardware form, hold at reset and at the start of a run over any buffer (10_state.md R24,
70_reset_and_hazards.md R156). -/
def Obligations.InvariantHoldsAtStart : Prop :=
  State.reset.Inv ∧ PortState.Inv { core := State.reset, outstanding := none } ∧
  ∀ bytes : List Byte, (State.load bytes).Inv ∧ PortState.Inv { core := State.load bytes, outstanding := none }

/-- Every step keeps the invariant: canonical buffer, cursor bound (41_sequencer.md R96), anchor (10_state.md R14), command arguments in
range (R20), reports of reserved headers at ascending offsets (60_exceptions.md R130, R137). Every round of the hardware form, one of
reset too, keeps its own: also that a command outstanding is the one the frame at the cursor sends (notes/assumptions/16.md, 22.md). -/
def Obligations.StepKeepsInvariant : Prop :=
  (∀ s t : State, s.Inv → step s = .next t → t.Inv) ∧
  ∀ (inp : Inputs) (p q : PortState), p.Inv → portStep inp p = .next q → q.Inv

/-- 42_compact_ops.md R108: below `LEN = 2^57` every step keeps each coordinate within 32 for each byte passed, and a move is
exact integer addition: the wrap of D8 is never exercised. -/
def Obligations.PositionsStayExact : Prop :=
  ∀ s t : State, s.len < 2 ^ 57 → s.Exact → step s = .next t →
    t.Exact ∧
    ∀ h, s.memRead s.cur = .ok h →
      (classify h = .dx → t.x.toInt = s.x.toInt + decOperand h []) ∧
      (classify h = .dy → t.y.toInt = s.y.toInt + decOperand h [])

/-- R108: the range that PositionsStayExact keeps holds at reset and at the start of a run over any buffer. -/
def Obligations.PositionsExactAtStart : Prop :=
  State.reset.Exact ∧ ∀ bytes : List Byte, (State.load bytes).Exact

/-- 10_state.md R12: with a cursor bus of `w` bits and `LEN <= 2^w - 5`, a cursor that fits the bus still fits after a step, so
the bus's sum never wraps; the width is the spec's decision D3 (notes/assumptions/11.md). -/
def Obligations.CursorFitsItsBus : Prop :=
  ∀ (w : Nat) (s t : State), Config.admitsLength w s.len → s.cur < 2 ^ w → step s = .next t →
    (BitVec.ofNat w t.cur).toNat = t.cur ∧
    (s.cur < s.len →
      BitVec.ofNat w t.cur = BitVec.ofNat w s.cur + BitVec.ofNat w (frameLength (s.mem.read s.cur)))

/-- 41_sequencer.md R100, 43_extended_ops.md R117, 60_exceptions.md R141: while a command is outstanding and the surface has not completed
it, the machine holds the cursor and all registers, is not `DONE`, and presents that command; with its completion the step completes,
and its command is in the trace. The handshake is the spec's decision D9; that the values held are those from before the step is read
from R117, R135, R152 (notes/assumptions/22.md); the kinds' numbers and the widening to 64 bits are the model's choice
(notes/assumptions/21.md). -/
def Obligations.OutstandingCommandHoldsMachine : Prop :=
  ∀ (p : PortState) (c : Command), p.outstanding = some c →
    (∀ inps : List Inputs, (∀ inp ∈ inps, inp.reset = false ∧ inp.cmdReady = false) → portRun inps p = .next p) ∧
    p.status = .running ∧ p.cmdPort.valid = true ∧
    (∀ x0 y0 x1 y1, c = .line x0 y0 x1 y1 → p.cmdPort = { valid := true, kind := 1#3, a := x0, b := y0, c := x1, d := y1 }) ∧
    (∀ ms, c = .pause ms → p.cmdPort.kind = 2#3) ∧ (c = .clear → p.cmdPort.kind = 4#3) ∧
    (c = .key → p.cmdPort.kind = 5#3) ∧ (∀ n, c = .colour n → p.cmdPort.kind = 6#3) ∧
    (p.Inv → p.core.status = .running ∧
      (∀ ms, c = .pause ms → p.cmdPort.a.toNat = ms) ∧ (∀ n, c = .colour n → p.cmdPort.a.toInt = n) ∧
      ∃ t, step p.core = .next t ∧ t.commands = p.core.commands ++ [c] ∧
        portStep { reset := false, cmdReady := true } p = .next { core := t, outstanding := none })

/-- 41_sequencer.md R100, 70_reset_and_hazards.md R160: whatever the surface's delays, a run of the hardware form without reset passes
through states of the core machine's run, in order, and the commands it has issued are those of that run, the one outstanding
included. Rounds and holding are the model's form of the spec's decision D9 (notes/assumptions/16.md, 22.md). -/
def Obligations.PortRunRefinesCoreRun : Prop :=
  ∀ (inps : List Inputs) (p : PortState), (∀ inp ∈ inps, inp.reset = false) →
    ∃ (q : PortState) (n : Nat), portRun inps p = .next q ∧ n ≤ inps.length ∧ core.run n p.core = .next q.core ∧
      (p.Inv → ∃ u, core.run (n + q.outstanding.toList.length) p.core = .next u ∧ q.issued = u.commands)

/-- 70_reset_and_hazards.md R161, 41_sequencer.md R97, R100: if the surface completes every command, after whatever delays, the hardware
form runs the whole buffer to the state of the core machine's run: it is `DONE` and no command is outstanding, once the surface has
been ready in twice as many rounds as bytes remain. The count rests on the rounds of notes/assumptions/16.md, and the core's run on
its holding still in `DONE` (notes/assumptions/2.md). -/
def Obligations.ServedPortRunReachesDone : Prop :=
  ∀ (inps : List Inputs) (p : PortState), p.Inv → (∀ inp ∈ inps, inp.reset = false) →
    2 * (p.core.len - p.core.cur) ≤ inps.countP (fun inp => inp.cmdReady) →
    ∃ q, portRun inps p = .next q ∧ q.status = .done ∧ q.core.status = .done ∧ q.outstanding = none ∧
      core.run (p.core.len - p.core.cur) p.core = .next q.core
end

