-- ==== Sys2Proof/Laws/PerInstr.lean ====
section
/-! SUPPORT. Statements about every instruction as syntax, one lemma per constructor. -/

namespace Sys2Proof

/-- The fields of an extended header (R50, view X). -/
theorem extHeader_fields (e : ExtLen) (xop : BitVec 4) :
    (hdrSel (extHeader e xop)).toNat = 3 ∧ hdrXop (extHeader e xop) = xop ∧ declaredLen (extHeader e xop) = e := by
  cases e <;> revert xop <;> decide

end Sys2Proof

namespace Sys2Proof.Laws.HeaderDecodes

/-- The header of a frame gives the frame back from its payload, and declares the frame's length (R53, R72). -/
def Statement (i : Instr) : Prop :=
  frameInstr i.header i.payload = i ∧ declaredLen i.header = i.extLen

theorem dx (imm : Imm6) : Statement (.dx imm) := by
  revert imm; unfold Statement; decide

theorem dy (imm : Imm6) : Statement (.dy imm) := by
  revert imm; unfold Statement; decide

theorem dt (imm : Imm6) : Statement (.dt imm) := by
  revert imm; unfold Statement; decide

theorem pen (e : ExtLen) (ext : List Byte) : Statement (.pen e ext) :=
  ⟨(by cases e <;> rfl : frameInstr (extHeader e 3#4) ext = .pen e ext), (extHeader_fields e _).2.2⟩

theorem clear (e : ExtLen) (ext : List Byte) : Statement (.clear e ext) :=
  ⟨(by cases e <;> rfl : frameInstr (extHeader e 4#4) ext = .clear e ext), (extHeader_fields e _).2.2⟩

theorem key (e : ExtLen) (ext : List Byte) : Statement (.key e ext) :=
  ⟨(by cases e <;> rfl : frameInstr (extHeader e 5#4) ext = .key e ext), (extHeader_fields e _).2.2⟩

theorem col (e : ExtLen) (ext : List Byte) : Statement (.col e ext) :=
  ⟨(by cases e <;> rfl : frameInstr (extHeader e 6#4) ext = .col e ext), (extHeader_fields e _).2.2⟩

theorem rsvd0 (e : ExtLen) (ext : List Byte) : Statement (.rsvd0 e ext) :=
  ⟨(by cases e <;> rfl : frameInstr (extHeader e 0#4) ext = .rsvd0 e ext), (extHeader_fields e _).2.2⟩

theorem rsvd1 (e : ExtLen) (ext : List Byte) : Statement (.rsvd1 e ext) :=
  ⟨(by cases e <;> rfl : frameInstr (extHeader e 1#4) ext = .rsvd1 e ext), (extHeader_fields e _).2.2⟩

theorem rsvd2 (e : ExtLen) (ext : List Byte) : Statement (.rsvd2 e ext) :=
  ⟨(by cases e <;> rfl : frameInstr (extHeader e 2#4) ext = .rsvd2 e ext), (extHeader_fields e _).2.2⟩

theorem rsvd7 (e : ExtLen) (ext : List Byte) : Statement (.rsvd7 e ext) :=
  ⟨(by cases e <;> rfl : frameInstr (extHeader e 7#4) ext = .rsvd7 e ext), (extHeader_fields e _).2.2⟩

theorem rsvd8 (e : ExtLen) (ext : List Byte) : Statement (.rsvd8 e ext) :=
  ⟨(by cases e <;> rfl : frameInstr (extHeader e 8#4) ext = .rsvd8 e ext), (extHeader_fields e _).2.2⟩

theorem rsvd9 (e : ExtLen) (ext : List Byte) : Statement (.rsvd9 e ext) :=
  ⟨(by cases e <;> rfl : frameInstr (extHeader e 9#4) ext = .rsvd9 e ext), (extHeader_fields e _).2.2⟩

theorem rsvd10 (e : ExtLen) (ext : List Byte) : Statement (.rsvd10 e ext) :=
  ⟨(by cases e <;> rfl : frameInstr (extHeader e 10#4) ext = .rsvd10 e ext), (extHeader_fields e _).2.2⟩

theorem rsvd11 (e : ExtLen) (ext : List Byte) : Statement (.rsvd11 e ext) :=
  ⟨(by cases e <;> rfl : frameInstr (extHeader e 11#4) ext = .rsvd11 e ext), (extHeader_fields e _).2.2⟩

theorem rsvd12 (e : ExtLen) (ext : List Byte) : Statement (.rsvd12 e ext) :=
  ⟨(by cases e <;> rfl : frameInstr (extHeader e 12#4) ext = .rsvd12 e ext), (extHeader_fields e _).2.2⟩

theorem rsvd13 (e : ExtLen) (ext : List Byte) : Statement (.rsvd13 e ext) :=
  ⟨(by cases e <;> rfl : frameInstr (extHeader e 13#4) ext = .rsvd13 e ext), (extHeader_fields e _).2.2⟩

theorem rsvd14 (e : ExtLen) (ext : List Byte) : Statement (.rsvd14 e ext) :=
  ⟨(by cases e <;> rfl : frameInstr (extHeader e 14#4) ext = .rsvd14 e ext), (extHeader_fields e _).2.2⟩

theorem rsvd15 (e : ExtLen) (ext : List Byte) : Statement (.rsvd15 e ext) :=
  ⟨(by cases e <;> rfl : frameInstr (extHeader e 15#4) ext = .rsvd15 e ext), (extHeader_fields e _).2.2⟩

end Sys2Proof.Laws.HeaderDecodes
end

