-- ==== Sys2Proof/Laws/Decode.lean ====
section
/-! SUPPORT. What the decoder and the encoder do, said once. -/

namespace Sys2Proof

theorem ExtLen.count_le (e : ExtLen) : e.count ≤ 4 := by cases e <;> decide

theorem extraCount_le (h : Byte) : extraCount h ≤ 4 := ExtLen.count_le _

theorem frameLength_pos (h : Byte) : 1 ≤ frameLength h := Nat.le_add_right 1 _

theorem frameLength_le (h : Byte) : frameLength h ≤ 5 := by
  have := extraCount_le h
  simp only [frameLength]
  omega

/-- Every frame is given back by its header and its payload. -/
theorem header_decodes (i : Instr) : Laws.HeaderDecodes.Statement i := by
  cases i with
  | dx imm => exact Laws.HeaderDecodes.dx imm
  | dy imm => exact Laws.HeaderDecodes.dy imm
  | dt imm => exact Laws.HeaderDecodes.dt imm
  | pen e ext => exact Laws.HeaderDecodes.pen e ext
  | clear e ext => exact Laws.HeaderDecodes.clear e ext
  | key e ext => exact Laws.HeaderDecodes.key e ext
  | col e ext => exact Laws.HeaderDecodes.col e ext
  | rsvd0 e ext => exact Laws.HeaderDecodes.rsvd0 e ext
  | rsvd1 e ext => exact Laws.HeaderDecodes.rsvd1 e ext
  | rsvd2 e ext => exact Laws.HeaderDecodes.rsvd2 e ext
  | rsvd7 e ext => exact Laws.HeaderDecodes.rsvd7 e ext
  | rsvd8 e ext => exact Laws.HeaderDecodes.rsvd8 e ext
  | rsvd9 e ext => exact Laws.HeaderDecodes.rsvd9 e ext
  | rsvd10 e ext => exact Laws.HeaderDecodes.rsvd10 e ext
  | rsvd11 e ext => exact Laws.HeaderDecodes.rsvd11 e ext
  | rsvd12 e ext => exact Laws.HeaderDecodes.rsvd12 e ext
  | rsvd13 e ext => exact Laws.HeaderDecodes.rsvd13 e ext
  | rsvd14 e ext => exact Laws.HeaderDecodes.rsvd14 e ext
  | rsvd15 e ext => exact Laws.HeaderDecodes.rsvd15 e ext

/-- The header of a frame is the byte it was decoded from. -/
theorem header_frameInstr (h : Byte) (ext : List Byte) : (frameInstr h ext).header = h := by
  have key : ∀ h : Byte, (frameInstr h []).header = h := by decide
  have same : (frameInstr h ext).header = (frameInstr h []).header := by
    unfold frameInstr
    split <;> first | rfl | (split <;> rfl)
  rw [same, key]

theorem extraCount_header (i : Instr) : extraCount i.header = i.extLen.count := by
  rw [extraCount, (header_decodes i).2]

theorem frameLength_header (i : Instr) : frameLength i.header = i.frameLength := by
  rw [frameLength, extraCount_header, Instr.frameLength]

theorem extLen_frameInstr (h : Byte) (ext : List Byte) : (frameInstr h ext).extLen = declaredLen h := by
  have := (header_decodes (frameInstr h ext)).2
  rw [header_frameInstr] at this
  exact this.symm

/-- A frame keeps the extension bytes it was given, if they are no more than its header declares. -/
theorem payload_frameInstr (h : Byte) (ext : List Byte) (hl : ext.length ≤ extraCount h) :
    (frameInstr h ext).payload = ext := by
  have compact : ∀ h : Byte, (hdrSel h).toNat ≠ 3 → extraCount h = 0 := by decide
  by_cases h3 : (hdrSel h).toNat = 3
  · simp only [frameInstr, h3]
    split <;> rfl
  · have := compact h h3
    have he : ext = [] := List.eq_nil_of_length_eq_zero (by omega)
    subst he
    unfold frameInstr
    split <;> first | rfl | (split <;> rfl)

/-- Such a frame is well formed. -/
theorem wf_frameInstr (h : Byte) (ext : List Byte) (hl : ext.length ≤ extraCount h) : (frameInstr h ext).wf = true := by
  simp only [Instr.wf, payload_frameInstr h ext hl, extLen_frameInstr]
  exact decide_eq_true hl

end Sys2Proof
end

