-- ==== Sys2Proof/Laws/State.lean ====
section
/-! SUPPORT. One lemma per field of State for each update of the machine, so that no proof unfolds a record update. -/

namespace Sys2Proof.Machine

@[simp] theorem State.setX_cur (s : State) (v : Pos) : (s.setX v).cur = s.cur := rfl
@[simp] theorem State.setX_x (s : State) (v : Pos) : (s.setX v).x = v := rfl
@[simp] theorem State.setX_y (s : State) (v : Pos) : (s.setX v).y = s.y := rfl
@[simp] theorem State.setX_px (s : State) (v : Pos) : (s.setX v).px = s.px := rfl
@[simp] theorem State.setX_py (s : State) (v : Pos) : (s.setX v).py = s.py := rfl
@[simp] theorem State.setX_pen (s : State) (v : Pos) : (s.setX v).pen = s.pen := rfl
@[simp] theorem State.setX_mem (s : State) (v : Pos) : (s.setX v).mem = s.mem := rfl
@[simp] theorem State.setX_len (s : State) (v : Pos) : (s.setX v).len = s.len := rfl
@[simp] theorem State.setX_commands (s : State) (v : Pos) : (s.setX v).commands = s.commands := rfl
@[simp] theorem State.setX_reports (s : State) (v : Pos) : (s.setX v).reports = s.reports := rfl

@[simp] theorem State.setY_cur (s : State) (v : Pos) : (s.setY v).cur = s.cur := rfl
@[simp] theorem State.setY_x (s : State) (v : Pos) : (s.setY v).x = s.x := rfl
@[simp] theorem State.setY_y (s : State) (v : Pos) : (s.setY v).y = v := rfl
@[simp] theorem State.setY_px (s : State) (v : Pos) : (s.setY v).px = s.px := rfl
@[simp] theorem State.setY_py (s : State) (v : Pos) : (s.setY v).py = s.py := rfl
@[simp] theorem State.setY_pen (s : State) (v : Pos) : (s.setY v).pen = s.pen := rfl
@[simp] theorem State.setY_mem (s : State) (v : Pos) : (s.setY v).mem = s.mem := rfl
@[simp] theorem State.setY_len (s : State) (v : Pos) : (s.setY v).len = s.len := rfl
@[simp] theorem State.setY_commands (s : State) (v : Pos) : (s.setY v).commands = s.commands := rfl
@[simp] theorem State.setY_reports (s : State) (v : Pos) : (s.setY v).reports = s.reports := rfl

@[simp] theorem State.recordPosition_cur (s : State) : (s.recordPosition).cur = s.cur := rfl
@[simp] theorem State.recordPosition_x (s : State) : (s.recordPosition).x = s.x := rfl
@[simp] theorem State.recordPosition_y (s : State) : (s.recordPosition).y = s.y := rfl
@[simp] theorem State.recordPosition_px (s : State) : (s.recordPosition).px = s.x := rfl
@[simp] theorem State.recordPosition_py (s : State) : (s.recordPosition).py = s.y := rfl
@[simp] theorem State.recordPosition_pen (s : State) : (s.recordPosition).pen = s.pen := rfl
@[simp] theorem State.recordPosition_mem (s : State) : (s.recordPosition).mem = s.mem := rfl
@[simp] theorem State.recordPosition_len (s : State) : (s.recordPosition).len = s.len := rfl
@[simp] theorem State.recordPosition_commands (s : State) : (s.recordPosition).commands = s.commands := rfl
@[simp] theorem State.recordPosition_reports (s : State) : (s.recordPosition).reports = s.reports := rfl

@[simp] theorem State.emit_cur (s : State) (c : Command) : (s.emit c).cur = s.cur := rfl
@[simp] theorem State.emit_x (s : State) (c : Command) : (s.emit c).x = s.x := rfl
@[simp] theorem State.emit_y (s : State) (c : Command) : (s.emit c).y = s.y := rfl
@[simp] theorem State.emit_px (s : State) (c : Command) : (s.emit c).px = s.px := rfl
@[simp] theorem State.emit_py (s : State) (c : Command) : (s.emit c).py = s.py := rfl
@[simp] theorem State.emit_pen (s : State) (c : Command) : (s.emit c).pen = s.pen := rfl
@[simp] theorem State.emit_mem (s : State) (c : Command) : (s.emit c).mem = s.mem := rfl
@[simp] theorem State.emit_len (s : State) (c : Command) : (s.emit c).len = s.len := rfl
@[simp] theorem State.emit_commands (s : State) (c : Command) : (s.emit c).commands = s.commands ++ [c] := rfl
@[simp] theorem State.emit_reports (s : State) (c : Command) : (s.emit c).reports = s.reports := rfl

@[simp] theorem State.reportInvalid_cur (s : State) (h : Byte) : (s.reportInvalid h).cur = s.cur := rfl
@[simp] theorem State.reportInvalid_x (s : State) (h : Byte) : (s.reportInvalid h).x = s.x := rfl
@[simp] theorem State.reportInvalid_y (s : State) (h : Byte) : (s.reportInvalid h).y = s.y := rfl
@[simp] theorem State.reportInvalid_px (s : State) (h : Byte) : (s.reportInvalid h).px = s.px := rfl
@[simp] theorem State.reportInvalid_py (s : State) (h : Byte) : (s.reportInvalid h).py = s.py := rfl
@[simp] theorem State.reportInvalid_pen (s : State) (h : Byte) : (s.reportInvalid h).pen = s.pen := rfl
@[simp] theorem State.reportInvalid_mem (s : State) (h : Byte) : (s.reportInvalid h).mem = s.mem := rfl
@[simp] theorem State.reportInvalid_len (s : State) (h : Byte) : (s.reportInvalid h).len = s.len := rfl
@[simp] theorem State.reportInvalid_commands (s : State) (h : Byte) : (s.reportInvalid h).commands = s.commands := rfl
@[simp] theorem State.reportInvalid_reports (s : State) (h : Byte) : (s.reportInvalid h).reports = s.reports ++ [.invalidInstruction s.cur h] := rfl

@[simp] theorem State.advance_cur (s : State) (n : Nat) : (s.advance n).cur = s.cur + n := rfl
@[simp] theorem State.advance_x (s : State) (n : Nat) : (s.advance n).x = s.x := rfl
@[simp] theorem State.advance_y (s : State) (n : Nat) : (s.advance n).y = s.y := rfl
@[simp] theorem State.advance_px (s : State) (n : Nat) : (s.advance n).px = s.px := rfl
@[simp] theorem State.advance_py (s : State) (n : Nat) : (s.advance n).py = s.py := rfl
@[simp] theorem State.advance_pen (s : State) (n : Nat) : (s.advance n).pen = s.pen := rfl
@[simp] theorem State.advance_mem (s : State) (n : Nat) : (s.advance n).mem = s.mem := rfl
@[simp] theorem State.advance_len (s : State) (n : Nat) : (s.advance n).len = s.len := rfl
@[simp] theorem State.advance_commands (s : State) (n : Nat) : (s.advance n).commands = s.commands := rfl
@[simp] theorem State.advance_reports (s : State) (n : Nat) : (s.advance n).reports = s.reports := rfl

@[simp] theorem State.togglePen_cur (s : State) : (s.togglePen).cur = s.cur := rfl
@[simp] theorem State.togglePen_x (s : State) : (s.togglePen).x = s.x := rfl
@[simp] theorem State.togglePen_y (s : State) : (s.togglePen).y = s.y := rfl
@[simp] theorem State.togglePen_px (s : State) : (s.togglePen).px = s.px := rfl
@[simp] theorem State.togglePen_py (s : State) : (s.togglePen).py = s.py := rfl
@[simp] theorem State.togglePen_pen (s : State) : (s.togglePen).pen = !s.pen := rfl
@[simp] theorem State.togglePen_mem (s : State) : (s.togglePen).mem = s.mem := rfl
@[simp] theorem State.togglePen_len (s : State) : (s.togglePen).len = s.len := rfl
@[simp] theorem State.togglePen_commands (s : State) : (s.togglePen).commands = s.commands := rfl
@[simp] theorem State.togglePen_reports (s : State) : (s.togglePen).reports = s.reports := rfl

@[simp] theorem State.applyReset_cur (s : State) : (s.applyReset).cur = State.reset.cur := rfl
@[simp] theorem State.applyReset_x (s : State) : (s.applyReset).x = State.reset.x := rfl
@[simp] theorem State.applyReset_y (s : State) : (s.applyReset).y = State.reset.y := rfl
@[simp] theorem State.applyReset_px (s : State) : (s.applyReset).px = State.reset.px := rfl
@[simp] theorem State.applyReset_py (s : State) : (s.applyReset).py = State.reset.py := rfl
@[simp] theorem State.applyReset_pen (s : State) : (s.applyReset).pen = State.reset.pen := rfl
@[simp] theorem State.applyReset_mem (s : State) : (s.applyReset).mem = s.mem := rfl
@[simp] theorem State.applyReset_len (s : State) : (s.applyReset).len = s.len := rfl
@[simp] theorem State.applyReset_commands (s : State) : (s.applyReset).commands = State.reset.commands := rfl
@[simp] theorem State.applyReset_reports (s : State) : (s.applyReset).reports = State.reset.reports := rfl

@[simp] theorem State.drawIfDown_cur (s : State) : s.drawIfDown.cur = s.cur := rfl
@[simp] theorem State.drawIfDown_x (s : State) : s.drawIfDown.x = s.x := rfl
@[simp] theorem State.drawIfDown_y (s : State) : s.drawIfDown.y = s.y := rfl
@[simp] theorem State.drawIfDown_px (s : State) : s.drawIfDown.px = s.px := rfl
@[simp] theorem State.drawIfDown_py (s : State) : s.drawIfDown.py = s.py := rfl
@[simp] theorem State.drawIfDown_pen (s : State) : s.drawIfDown.pen = s.pen := rfl
@[simp] theorem State.drawIfDown_mem (s : State) : s.drawIfDown.mem = s.mem := rfl
@[simp] theorem State.drawIfDown_len (s : State) : s.drawIfDown.len = s.len := rfl
@[simp] theorem State.drawIfDown_commands (s : State) : s.drawIfDown.commands = s.commands ++ s.stroke := rfl
@[simp] theorem State.drawIfDown_reports (s : State) : s.drawIfDown.reports = s.reports := rfl

theorem State.stroke_down {s : State} (h : s.pen = true) : s.stroke = [.line s.px s.py s.x s.y] := by
  simp only [State.stroke, h]

theorem State.stroke_up {s : State} (h : s.pen = false) : s.stroke = [] := by
  simp only [State.stroke, h]

/-- Two states with equal fields are equal. -/
theorem State.ext_fields {s t : State} (h1 : s.cur = t.cur) (h2 : s.x = t.x) (h3 : s.y = t.y) (h4 : s.px = t.px)
    (h5 : s.py = t.py) (h6 : s.pen = t.pen) (h7 : s.mem = t.mem) (h8 : s.len = t.len)
    (h9 : s.commands = t.commands) (h10 : s.reports = t.reports) : s = t := by
  cases s; cases t; simp_all

end Sys2Proof.Machine
end

