-- ==== Sys2Proof/Laws/Step.lean ====
section
/-! SUPPORT. What fetching, executing and a step can do, said once; later proofs cite these and unfold nothing. -/

namespace Sys2Proof.Machine

theorem State.memRead_inside {s : State} {a : Nat} (h : a < s.len) : s.memRead a = .ok (s.mem.read a) := if_pos h

theorem State.memRead_outside {s : State} {a : Nat} (h : s.len ≤ a) :
    s.memRead a = .error (.readOutsideBuffer a) := if_neg (by omega)

theorem State.memRead_ok {s : State} {a : Nat} {b : Byte} (h : s.memRead a = .ok b) :
    a < s.len ∧ b = s.mem.read a := by
  unfold State.memRead at h
  split at h
  · exact ⟨‹_›, by injection h with h; exact h.symm⟩
  · cases h

/-- Reads that stay inside the buffer all succeed. -/
theorem State.readBytes_inside {s : State} {a k : Nat} (h : a + k ≤ s.len) :
    s.readBytes a k = .ok ((List.range k).map fun j => s.mem.read (a + j)) := by
  induction k generalizing a with
  | zero => rfl
  | succ k ih =>
    have hr := State.memRead_inside (s := s) (a := a) (by omega)
    simp only [State.readBytes, hr, ih (a := a + 1) (by omega), List.range_succ_eq_map, List.map_cons, List.map_map]
    simp only [Nat.add_zero, Function.comp_def, Nat.succ_eq_add_one, Nat.add_assoc, Nat.add_comm 1]

/-- The extension bytes that a running machine gathers for a header. -/
def State.gathered (s : State) : List Byte :=
  (List.range (s.gatherCount (s.mem.read s.cur))).map fun j => s.mem.read (s.cur + 1 + j)

theorem State.fetchFrame_running {s : State} (h : s.cur < s.len) :
    s.fetchFrame = .ok (s.mem.read s.cur, s.gathered) := by
  have hk : s.cur + 1 + s.gatherCount (s.mem.read s.cur) ≤ s.len := by
    unfold State.gatherCount; omega
  simp only [State.fetchFrame, State.memRead_inside h, State.readBytes_inside hk, State.gathered]

/-- The state a frame leaves, before the cursor's advance. -/
def effect (i : Instr) (s : State) : State :=
  match exec i s with
  | .next t => t
  | .fault _ => s
  | .refused _ => s

theorem exec_next (i : Instr) (s : State) : exec i s = .next (effect i s) := by
  cases i <;> rfl

/-- No frame touches the cursor, the buffer or its length. -/
theorem effect_frame (i : Instr) (s : State) :
    (effect i s).cur = s.cur ∧ (effect i s).mem = s.mem ∧ (effect i s).len = s.len := by
  cases i <;> simp [effect, exec, execDx, execDy, execDt, execPen, execClear, execKey, execCol, execRsvd0, execRsvd1,
    execRsvd2, execRsvd7, execRsvd8, execRsvd9, execRsvd10, execRsvd11, execRsvd12, execRsvd13, execRsvd14, execRsvd15]

/-- A reserved frame's meaning, in terms of its header. -/
theorem effect_of_reserved (i : Instr) (hi : classify i.header = .invalid) (s : State) :
    effect i s = s.reportInvalid i.header := by
  have compact : ∀ imm : Imm6, classify (0#2 ++ imm : Byte) = .dx ∧ classify (1#2 ++ imm : Byte) = .dy ∧
      classify (2#2 ++ imm : Byte) = .dt := by decide
  have extended : ∀ e : ExtLen, classify (extHeader e 3#4) = .pen ∧ classify (extHeader e 4#4) = .clear ∧
      classify (extHeader e 5#4) = .key ∧ classify (extHeader e 6#4) = .col := by
    intro e; cases e <;> decide
  cases i with
  | dx imm => simp [Instr.header, compact imm] at hi
  | dy imm => simp [Instr.header, compact imm] at hi
  | dt imm => simp [Instr.header, compact imm] at hi
  | pen e ext => simp [Instr.header, extended e] at hi
  | clear e ext => simp [Instr.header, extended e] at hi
  | key e ext => simp [Instr.header, extended e] at hi
  | col e ext => simp [Instr.header, extended e] at hi
  | _ e ext => rfl

/-- What the frame with a given header is: the seven opcodes with their operands, or a reserved frame that only reports. -/
theorem frameInstr_cases (h : Byte) (ext : List Byte) :
    (classify h = .dx ∧ frameInstr h ext = .dx (hdrImm h) ∧ decOperand h ext = moveOperand (hdrImm h)) ∨
    (classify h = .dy ∧ frameInstr h ext = .dy (hdrImm h) ∧ decOperand h ext = moveOperand (hdrImm h)) ∨
    (classify h = .dt ∧ frameInstr h ext = .dt (hdrImm h) ∧ decOperand h ext = pauseOperand (hdrImm h)) ∨
    (classify h = .pen ∧ frameInstr h ext = .pen (declaredLen h) ext) ∨
    (classify h = .clear ∧ frameInstr h ext = .clear (declaredLen h) ext) ∨
    (classify h = .key ∧ frameInstr h ext = .key (declaredLen h) ext) ∨
    (classify h = .col ∧ frameInstr h ext = .col (declaredLen h) ext ∧ decOperand h ext = payloadOperand ext) ∨
    (classify h = .invalid ∧ ∀ s, effect (frameInstr h ext) s = s.reportInvalid h) := by
  have hs : (hdrSel h).toNat < 4 := (hdrSel h).isLt
  by_cases hi : classify h = .invalid
  · have := effect_of_reserved (frameInstr h ext) (by rw [header_frameInstr]; exact hi)
    rw [header_frameInstr] at this
    simp only [hi, this, implies_true, and_self, or_true]
  · obtain e | e | e | e : (hdrSel h).toNat = 0 ∨ (hdrSel h).toNat = 1 ∨ (hdrSel h).toNat = 2 ∨
        (hdrSel h).toNat = 3 := by omega
    · simp [classify, frameInstr, decOperand, e]
    · simp [classify, frameInstr, decOperand, e]
    · simp [classify, frameInstr, decOperand, e]
    · simp only [classify, e] at hi
      split at hi
      · rename_i x; simp [classify, frameInstr, e, x]
      · rename_i x; simp [classify, frameInstr, e, x]
      · rename_i x; simp [classify, frameInstr, e, x]
      · rename_i x; simp [classify, frameInstr, decOperand, e, x]
      · exact absurd rfl hi

/-- What a frame with a given header can do: one of the eight effects, in terms of DEC's operand. Later proofs cite this
and unfold no meaning. -/
theorem effect_cases (h : Byte) (ext : List Byte) (s : State) :
    (classify h = .dx ∧
      effect (frameInstr h ext) s = { s with x := addPos s.x (decOperand h ext) }) ∨
    (classify h = .dy ∧
      effect (frameInstr h ext) s = { s with
        y := addPos s.y (decOperand h ext)
        px := s.x
        py := addPos s.y (decOperand h ext)
        commands := s.commands ++ (if s.pen then [.line s.px s.py s.x (addPos s.y (decOperand h ext))] else []) }) ∨
    (classify h = .dt ∧
      effect (frameInstr h ext) s = { s with commands := s.commands ++ [.pause (pauseDuration (hdrImm h).toNat)] }) ∨
    (classify h = .pen ∧
      effect (frameInstr h ext) s = { s with pen := !s.pen }) ∨
    (classify h = .clear ∧
      effect (frameInstr h ext) s = { s with commands := s.commands ++ [.clear] }) ∨
    (classify h = .key ∧
      effect (frameInstr h ext) s = { s with commands := s.commands ++ [.key] }) ∨
    (classify h = .col ∧ decOperand h ext = payloadOperand ext ∧
      effect (frameInstr h ext) s = { s with commands := s.commands ++ [.colour (payloadOperand ext)] }) ∨
    (classify h = .invalid ∧
      effect (frameInstr h ext) s = { s with reports := s.reports ++ [.invalidInstruction s.cur h] }) := by
  obtain ⟨c, f, o⟩ | ⟨c, f, o⟩ | ⟨c, f, o⟩ | ⟨c, f⟩ | ⟨c, f⟩ | ⟨c, f⟩ | ⟨c, f, o⟩ | ⟨c, f⟩ := frameInstr_cases h ext
  · exact .inl ⟨c, by rw [f, o]; rfl⟩
  · refine .inr (.inl ⟨c, ?_⟩)
    rw [f, o]
    simp only [effect, exec, execDy]
    apply State.ext_fields <;> cases hp : s.pen <;> simp [State.stroke, hp]
  · exact .inr (.inr (.inl ⟨c, by rw [f]; rfl⟩))
  · exact .inr (.inr (.inr (.inl ⟨c, by rw [f]; rfl⟩)))
  · exact .inr (.inr (.inr (.inr (.inl ⟨c, by rw [f]; rfl⟩))))
  · exact .inr (.inr (.inr (.inr (.inr (.inl ⟨c, by rw [f]; rfl⟩)))))
  · exact .inr (.inr (.inr (.inr (.inr (.inr (.inl ⟨c, o, by rw [f]; rfl⟩))))))
  · exact .inr (.inr (.inr (.inr (.inr (.inr (.inr ⟨c, by rw [f]; rfl⟩))))))

theorem step_done {s : State} (h : s.len ≤ s.cur) : step s = .next s := by
  have : s.status = .done := if_neg (by omega)
  simp only [step, this]

/-- A step of a running machine: the effect of the frame at the cursor, then the advance. -/
theorem step_running {s : State} (h : s.cur < s.len) :
    step s = .next ((effect (frameInstr (s.mem.read s.cur) s.gathered) s).advance (frameLength (s.mem.read s.cur))) := by
  have hs : s.status = .running := if_pos h
  simp only [step, hs, State.fetchFrame_running h, exec_next]

/-- Every step answers a next state, and either the machine was done and stays as it is, or it ran one frame. -/
theorem step_cases {s t : State} (h : step s = .next t) :
    (s.len ≤ s.cur ∧ t = s) ∨
    (s.cur < s.len ∧
      t = (effect (frameInstr (s.mem.read s.cur) s.gathered) s).advance (frameLength (s.mem.read s.cur))) := by
  by_cases hc : s.cur < s.len
  · rw [step_running hc] at h
    injection h with h
    exact .inr ⟨hc, h.symm⟩
  · rw [step_done (by omega)] at h
    injection h with h
    exact .inl ⟨by omega, h.symm⟩

theorem step_sameBuffer {s t : State} (h : step s = .next t) : t.mem = s.mem ∧ t.len = s.len := by
  obtain ⟨-, rfl⟩ | ⟨-, rfl⟩ := step_cases h
  · exact ⟨rfl, rfl⟩
  · exact ⟨(effect_frame _ s).2.1, (effect_frame _ s).2.2⟩

theorem step_total (s : State) : ∃ t, step s = .next t := by
  by_cases hc : s.cur < s.len
  · exact ⟨_, step_running hc⟩
  · exact ⟨_, step_done (by omega)⟩

theorem step_cur {s t : State} (h : step s = .next t) :
    s.cur ≤ t.cur ∧ t.cur ≤ s.cur + 5 ∧ (s.cur < s.len → s.cur < t.cur) := by
  obtain ⟨h, rfl⟩ | ⟨h, rfl⟩ := step_cases h
  · omega
  · have := frameLength_pos (s.mem.read s.cur)
    have := frameLength_le (s.mem.read s.cur)
    simp only [State.advance_cur, (effect_frame _ s).1]
    omega

theorem run_succ {n : Nat} {s t : State} (h : step s = .next t) : core.run (n + 1) s = core.run n t := by
  have hs : core.step s = .next t := h
  simp only [Host.Core.run, hs]

theorem status_done_iff (s : State) : s.status = .done ↔ s.len ≤ s.cur := by
  unfold State.status
  split <;> simp <;> omega

theorem remaining_cons {s : State} (h : s.cur < s.len) :
    s.remaining = s.mem.read s.cur ::
      (List.range (s.len - s.cur - 1)).map fun j => s.mem.read (s.cur + 1 + j) := by
  unfold State.remaining
  obtain ⟨n, hn⟩ : ∃ n, s.len - s.cur = n + 1 := ⟨s.len - s.cur - 1, by omega⟩
  rw [hn, List.range_succ_eq_map]
  simp [Function.comp_def, Nat.add_assoc, Nat.add_comm 1]

/-- The bytes gathered are the first of those that remain after the header. -/
theorem gathered_eq_take {s : State} (h : s.cur < s.len) :
    s.gathered = s.remaining.tail.take (extraCount (s.mem.read s.cur)) := by
  rw [remaining_cons h]
  simp [State.gathered, State.gatherCount, ← List.map_take, List.take_range]

end Sys2Proof.Machine
end

