-- ==== Sys2Proof/Laws/Handshake.lean ====
section
/-! SUPPORT. What a round of the hardware form can do, said once, and what a step sends; later proofs cite these and unfold
nothing. -/

namespace Sys2Proof.Machine

/-- A step appends to each trace what `emitted` and `reported` say, and nothing else. -/
theorem step_events {s t : State} (h : step s = .next t) :
    t.commands = s.commands ++ (emitted s t).toList ∧ t.reports = s.reports ++ (reported s t).toList := by
  obtain ⟨-, rfl⟩ | ⟨-, rfl⟩ := step_cases h
  · simp [emitted, reported]
  · obtain ⟨-, f⟩ | ⟨-, f⟩ | ⟨-, f⟩ | ⟨-, f⟩ | ⟨-, f⟩ | ⟨-, f⟩ | ⟨-, -, f⟩ | ⟨-, f⟩ :=
      effect_cases (s.mem.read s.cur) s.gathered s <;> rw [f] <;> simp [emitted, reported]
    split <;> simp

theorem nextCommand_of_step {s t : State} (h : step s = .next t) : s.nextCommand = emitted s t := by
  simp only [State.nextCommand, h]

/-- A machine that is done sends nothing. -/
theorem nextCommand_done {s : State} (h : s.len ≤ s.cur) : s.nextCommand = none := by
  simp [nextCommand_of_step (step_done h), emitted]

/-- What a round can do: reset; present a command and hold; hold; complete the command's step; or take a step that sends none. -/
theorem portStep_cases {inp : Inputs} {p q : PortState} (h : portStep inp p = .next q) :
    (inp.reset = true ∧ q = { core := p.core.applyReset, outstanding := none }) ∨
    (inp.reset = false ∧
      ((∃ c, p.outstanding = none ∧ p.core.nextCommand = some c ∧ q = { p with outstanding := some c }) ∨
       (p.outstanding.isSome = true ∧ inp.cmdReady = false ∧ q = p) ∨
       (∃ t, step p.core = .next t ∧ q = { core := t, outstanding := none } ∧
          ((p.outstanding.isSome = true ∧ inp.cmdReady = true) ∨
           (p.outstanding = none ∧ p.core.nextCommand = none))))) := by
  obtain ⟨t, ht⟩ := step_total p.core
  have hn := nextCommand_of_step ht
  cases hr : inp.reset with
  | true =>
    simp only [portStep, hr, if_true] at h
    injection h with h
    exact .inl ⟨rfl, h.symm⟩
  | false =>
    simp only [portStep, hr, ht, Bool.false_eq_true, if_false] at h
    injection h with h
    refine .inr ⟨rfl, ?_⟩
    cases ho : p.outstanding with
    | some c =>
      cases hc : inp.cmdReady with
      | true => exact .inr (.inr ⟨t, ht, by rw [← h]; simp [PortState.round, ho, hc], .inl ⟨rfl, rfl⟩⟩)
      | false => exact .inr (.inl ⟨rfl, rfl, by rw [← h]; simp [PortState.round, ho, hc]⟩)
    | none =>
      cases he : emitted p.core t with
      | some c => exact .inl ⟨c, rfl, by rw [hn, he], by rw [← h]; simp only [PortState.round, ho, he]⟩
      | none => exact .inr (.inr ⟨t, ht, by rw [← h]; simp [PortState.round, ho, he], .inr ⟨rfl, by rw [hn, he]⟩⟩)

theorem portStep_total (inp : Inputs) (p : PortState) : ∃ q, portStep inp p = .next q := by
  obtain ⟨t, ht⟩ := step_total p.core
  unfold portStep
  split
  · exact ⟨_, rfl⟩
  · rw [ht]; exact ⟨_, rfl⟩

theorem portRun_cons {inp : Inputs} {inps : List Inputs} {p q : PortState} (h : portStep inp p = .next q) :
    portRun (inp :: inps) p = portRun inps q := by
  simp only [portRun, h]

/-- In the invariant a command outstanding belongs to a frame inside the buffer, so the core is running. -/
theorem PortState.Inv.running {p : PortState} (hi : p.Inv) {c : Command} (hc : p.outstanding = some c) :
    p.core.cur < p.core.len := by
  by_cases h : p.core.cur < p.core.len
  · exact h
  · have := hi.command c hc
    rw [nextCommand_done (by omega)] at this
    cases this

@[simp] theorem cmdWires_valid (cur : Nat) (cmd : Option Command) : (cmdWires cur cmd).valid = cmd.isSome := rfl
@[simp] theorem cmdWires_kind (cur : Nat) (c : Command) : (cmdWires cur (some c)).kind = c.kind := rfl
@[simp] theorem cmdLane_zero (cur : Nat) (v : BitVec 64) (vs : List (BitVec 64)) : cmdLane cur (v :: vs) 0 = v := rfl
@[simp] theorem cmdWires_line (cur : Nat) (x0 y0 x1 y1 : Pos) :
    cmdWires cur (some (.line x0 y0 x1 y1)) =
      { valid := true, kind := 1#3, a := x0, b := y0, c := x1, d := y1 } := rfl
@[simp] theorem cmdWires_pause_a (cur ms : Nat) : (cmdWires cur (some (.pause ms))).a = BitVec.ofNat 64 ms := rfl
@[simp] theorem cmdWires_colour_a (cur : Nat) (code : Int) :
    (cmdWires cur (some (.colour code))).a = BitVec.ofInt 64 code := rfl

end Sys2Proof.Machine
end

