-- ==== Sys2Proof/Laws/Memory.lean ====
section
/-! SUPPORT. The laws of the byte buffer: read after write, and that every operation keeps the canonical form. -/

namespace Sys2Proof.Machine

@[simp] theorem Memory.read_nil (k : Nat) : Memory.read [] k = Memory.blank := rfl

theorem Memory.read_cons (a : Nat) (b : Byte) (m : Memory) (k : Nat) :
    Memory.read ((a, b) :: m) k = if a = k then b else Memory.read m k := rfl

@[simp] theorem Memory.wfFrom_nil (lo : Nat) : Memory.wfFrom lo [] = true := rfl

theorem Memory.wfFrom_cons (lo a : Nat) (b : Byte) (m : Memory) :
    Memory.wfFrom lo ((a, b) :: m) = true ↔ lo ≤ a ∧ b ≠ Memory.blank ∧ Memory.wfFrom (a + 1) m = true := by
  simp [Memory.wfFrom, and_assoc]

theorem Memory.wfFrom_mono {lo lo' : Nat} {m : Memory} (h : lo' ≤ lo) (hm : Memory.wfFrom lo m = true) :
    Memory.wfFrom lo' m = true := by
  cases m with
  | nil => rfl
  | cons c m =>
    obtain ⟨a, b⟩ := c
    rw [Memory.wfFrom_cons] at hm ⊢
    exact ⟨Nat.le_trans h hm.1, hm.2⟩

/-- In a canonical buffer, an offset below the first listed one reads as blank. -/
theorem Memory.read_below {lo k : Nat} {m : Memory} (hm : Memory.wfFrom lo m = true) (hk : k < lo) :
    Memory.read m k = Memory.blank := by
  induction m generalizing lo with
  | nil => rfl
  | cons c m ih =>
    obtain ⟨a, b⟩ := c
    rw [Memory.wfFrom_cons] at hm
    rw [Memory.read_cons, if_neg (by omega)]
    exact ih hm.2.2 (by omega)

theorem Memory.read_write_same {lo : Nat} {m : Memory} (hm : Memory.wfFrom lo m = true) (k : Nat) (v : Byte) :
    Memory.read (Memory.write m k v) k = v := by
  induction m generalizing lo with
  | nil => by_cases hv : v = Memory.blank <;> simp [Memory.write, Memory.read, hv]
  | cons c m ih =>
    obtain ⟨a, b⟩ := c
    rw [Memory.wfFrom_cons] at hm
    by_cases h1 : a < k
    · have hne : a ≠ k := by omega
      simp [Memory.write, h1, Memory.read_cons, hne, ih hm.2.2]
    · by_cases h2 : a = k
      · subst h2
        by_cases hv : v = Memory.blank
        · simp [Memory.write, hv, Memory.read_below hm.2.2]
        · simp [Memory.write, hv, Memory.read_cons]
      · by_cases hv : v = Memory.blank
        · have := Memory.read_below hm.2.2 (k := k) (by omega)
          simp [Memory.write, h1, h2, hv, Memory.read_cons, this]
        · simp [Memory.write, h1, h2, hv, Memory.read_cons]

theorem Memory.read_write_other (m : Memory) {k j : Nat} (hj : j ≠ k) (v : Byte) :
    Memory.read (Memory.write m k v) j = Memory.read m j := by
  induction m with
  | nil => by_cases hv : v = Memory.blank <;> simp [Memory.write, Memory.read, hv, Ne.symm hj]
  | cons c m ih =>
    obtain ⟨a, b⟩ := c
    by_cases h1 : a < k
    · simp [Memory.write, h1, Memory.read_cons, ih]
    · by_cases h2 : a = k
      · subst h2
        by_cases hv : v = Memory.blank <;> simp [Memory.write, hv, Memory.read_cons, Ne.symm hj]
      · by_cases hv : v = Memory.blank <;> simp [Memory.write, h1, h2, hv, Memory.read_cons, Ne.symm hj]

theorem Memory.write_wfFrom {lo k : Nat} {m : Memory} (hm : Memory.wfFrom lo m = true) (hk : lo ≤ k) (v : Byte) :
    Memory.wfFrom lo (Memory.write m k v) = true := by
  induction m generalizing lo with
  | nil => by_cases hv : v = Memory.blank <;> simp [Memory.write, Memory.wfFrom, hv, hk]
  | cons c m ih =>
    obtain ⟨a, b⟩ := c
    have hc := hm
    rw [Memory.wfFrom_cons] at hm
    by_cases h1 : a < k
    · simp only [Memory.write, h1, if_true, Memory.wfFrom_cons]
      exact ⟨hm.1, hm.2.1, ih hm.2.2 (by omega)⟩
    · by_cases h2 : a = k
      · subst h2
        by_cases hv : v = Memory.blank
        · simpa [Memory.write, hv] using Memory.wfFrom_mono (by omega) hm.2.2
        · simp [Memory.write, hv, Memory.wfFrom_cons, hm.1, hm.2.2]
      · by_cases hv : v = Memory.blank
        · simpa [Memory.write, h1, h2, hv] using hc
        · simp only [Memory.write, h1, h2, hv, if_false, Memory.wfFrom_cons]
          exact ⟨hk, hv, by omega, hm.2.1, hm.2.2⟩

theorem Memory.write_wf {m : Memory} (hm : m.wf = true) (k : Nat) (v : Byte) : (Memory.write m k v).wf = true :=
  Memory.write_wfFrom hm (Nat.zero_le k) v

theorem Memory.loadAt_wf {m : Memory} (hm : m.wf = true) (k : Nat) (bs : List Byte) : (m.loadAt k bs).wf = true := by
  induction bs generalizing m k with
  | nil => exact hm
  | cons b bs ih => exact ih (Memory.write_wf hm k b) (k + 1)

theorem Memory.reset_wf : State.reset.mem.wf = true := rfl

theorem Memory.read_loadAt_before (m : Memory) {k j : Nat} (hj : j < k) (bs : List Byte) :
    (m.loadAt k bs).read j = m.read j := by
  induction bs generalizing m k with
  | nil => rfl
  | cons b bs ih =>
    rw [Memory.loadAt, ih _ (by omega), Memory.read_write_other _ (by omega)]

theorem Memory.read_loadAt_after (m : Memory) {k j : Nat} (bs : List Byte) (hj : k + bs.length ≤ j) :
    (m.loadAt k bs).read j = m.read j := by
  induction bs generalizing m k with
  | nil => rfl
  | cons b bs ih =>
    simp only [List.length_cons] at hj
    rw [Memory.loadAt, ih _ (by omega), Memory.read_write_other _ (by omega)]

/-- A loaded byte reads back. -/
theorem Memory.read_loadAt {m : Memory} (hm : m.wf = true) (k : Nat) (bs : List Byte) (j : Nat) (hj : j < bs.length) :
    (m.loadAt k bs).read (k + j) = bs[j] := by
  induction bs generalizing m k j with
  | nil => simp at hj
  | cons b bs ih =>
    cases j with
    | zero =>
      rw [Memory.loadAt, Memory.read_loadAt_before _ (by omega)]
      exact Memory.read_write_same hm k b
    | succ j =>
      have h := ih (Memory.write_wf hm k b) (k + 1) j (by simpa using hj)
      rw [show k + 1 + j = k + (j + 1) by omega] at h
      simpa [Memory.loadAt] using h

theorem Memory.below_cons (n a : Nat) (b : Byte) (m : Memory) :
    Memory.below n ((a, b) :: m) = true ↔ a < n ∧ Memory.below n m = true := by
  simp [Memory.below]

theorem Memory.write_below {n k : Nat} {m : Memory} (hm : m.below n = true) (hk : k < n) (v : Byte) :
    (Memory.write m k v).below n = true := by
  induction m with
  | nil => by_cases hv : v = Memory.blank <;> simp [Memory.write, Memory.below, hv, hk]
  | cons c m ih =>
    obtain ⟨a, b⟩ := c
    rw [Memory.below_cons] at hm
    simp only [Memory.write]
    repeat' split
    all_goals simp_all [Memory.below_cons]

theorem Memory.loadAt_below {n k : Nat} {m : Memory} (hm : m.below n = true) (bs : List Byte)
    (hk : k + bs.length ≤ n) : (m.loadAt k bs).below n = true := by
  induction bs generalizing m k with
  | nil => exact hm
  | cons b bs ih =>
    simp only [List.length_cons] at hk
    exact ih (Memory.write_below hm (by omega) b) (by omega)

end Sys2Proof.Machine
end

