-- ==== Sys2Proof/Laws/Operands.lean ====
section
/-! SUPPORT. What big-endian packing and the payload operand are, byte by byte. -/

namespace Sys2Proof.Machine

theorem pow_eight (n : Nat) : 2 ^ (8 * n) = 256 ^ n := by rw [Nat.pow_mul]

/-- Packing from an accumulated value shifts it up by the bytes that follow. -/
theorem foldl_packBE (bs : List Byte) (a : Nat) :
    bs.foldl (fun (p : Nat) (c : Byte) => p * 256 + c.toNat) a = a * 256 ^ bs.length + packBE bs := by
  induction bs generalizing a with
  | nil => simp [packBE]
  | cons b bs ih =>
    have e : packBE (b :: bs) = b.toNat * 256 ^ bs.length + packBE bs := by
      rw [packBE, List.foldl_cons, ih, Nat.zero_mul, Nat.zero_add]
    rw [e, List.foldl_cons, ih, List.length_cons, Nat.pow_succ, Nat.add_mul, Nat.mul_assoc,
      Nat.mul_comm 256 (256 ^ bs.length)]
    omega

theorem packBE_cons (b : Byte) (bs : List Byte) : packBE (b :: bs) = b.toNat * 256 ^ bs.length + packBE bs := by
  have e : packBE (b :: bs) = bs.foldl (fun (p : Nat) (c : Byte) => p * 256 + c.toNat) (0 * 256 + b.toNat) := rfl
  rw [e, foldl_packBE]
  simp

theorem packBE_lt (bs : List Byte) : packBE bs < 256 ^ bs.length := by
  induction bs with
  | nil => simp [packBE]
  | cons b bs ih =>
    rw [packBE_cons, List.length_cons, Nat.pow_succ]
    have := b.isLt
    have : b.toNat * 256 ^ bs.length ≤ 255 * 256 ^ bs.length := Nat.mul_le_mul_right _ (by omega)
    omega

/-- The packed value has its top bit set just when its first byte has. -/
theorem packBE_top (b : Byte) (bs : List Byte) :
    2 ^ (8 * (bs.length + 1) - 1) ≤ packBE (b :: bs) ↔ 128 ≤ b.toNat := by
  rw [show 8 * (bs.length + 1) - 1 = 8 * bs.length + 7 by omega, Nat.pow_add, pow_eight, packBE_cons]
  have := packBE_lt bs
  by_cases hb : 128 ≤ b.toNat
  · have : 128 * 256 ^ bs.length ≤ b.toNat * 256 ^ bs.length := Nat.mul_le_mul_right _ hb
    simp only [hb, iff_true]
    omega
  · have : b.toNat * 256 ^ bs.length ≤ 127 * 256 ^ bs.length := Nat.mul_le_mul_right _ (by omega)
    simp only [hb, iff_false]
    omega

theorem payloadOperand_cons (b : Byte) (bs : List Byte) :
    payloadOperand (b :: bs) =
      if 128 ≤ b.toNat then (packBE (b :: bs) : Int) - 2 ^ (8 * (bs.length + 1)) else packBE (b :: bs) := by
  simp only [payloadOperand, signed, List.length_cons, packBE_top]

end Sys2Proof.Machine
end

