-- ==== Sys2Proof/Tests/Slice0.lean ====
section
/-! SUPPORT. The model's own tests: the well-formedness smoke, words written out from the encoding tables, one step of each
instruction with the results of 95_test_vectors.md, and a witness for the hypotheses of every statement that has some. -/

namespace Sys2Proof.Tests

open Sys2Proof.Machine

/-! ### Well-formedness: a frame with more extension bytes than its header declares is refused -/

theorem test_wf_refuses_surplus_bytes :
    Instr.wf (.pen .e0 [0#8]) = false ∧
    Instr.wf (.clear .e1 [0#8, 0#8]) = false ∧
    Instr.wf (.key .e2 [0#8, 0#8, 0#8]) = false ∧
    Instr.wf (.col .e4 [0#8, 0#8, 0#8, 0#8, 0#8]) = false ∧
    Instr.wf (.rsvd0 .e0 [0#8]) = false ∧
    Instr.wf (.rsvd1 .e1 [0#8, 0#8]) = false ∧
    Instr.wf (.rsvd2 .e2 [0#8, 0#8, 0#8]) = false ∧
    Instr.wf (.rsvd7 .e4 [0#8, 0#8, 0#8, 0#8, 0#8]) = false ∧
    Instr.wf (.rsvd8 .e0 [0#8]) = false ∧
    Instr.wf (.rsvd9 .e1 [0#8, 0#8]) = false ∧
    Instr.wf (.rsvd10 .e2 [0#8, 0#8, 0#8]) = false ∧
    Instr.wf (.rsvd11 .e4 [0#8, 0#8, 0#8, 0#8, 0#8]) = false ∧
    Instr.wf (.rsvd12 .e0 [0#8]) = false ∧
    Instr.wf (.rsvd13 .e1 [0#8, 0#8]) = false ∧
    Instr.wf (.rsvd14 .e2 [0#8, 0#8, 0#8]) = false ∧
    Instr.wf (.rsvd15 .e4 [0#8, 0#8, 0#8, 0#8, 0#8]) = false := by decide

theorem test_wf_accepts_full_and_truncated :
    Instr.wf (.dx 63#6) = true ∧ Instr.wf (.col .e4 [1#8, 2#8, 3#8, 4#8]) = true ∧
    Instr.wf (.col .e4 [1#8]) = true ∧ Instr.full (.col .e4 [1#8]) = false := by decide

/-! ### Decoding: words written bit by bit from the tables of R50 and R56 -/

/-- `00 iiiiii`, `01 iiiiii`, `10 iiiiii`. -/
theorem test_decode_compact_words :
    decode [0b00100000#8] = .ok (.dx 0b100000#6, []) ∧
    decode [0b01111111#8] = .ok (.dy 0b111111#6, []) ∧
    decode [0b10000101#8] = .ok (.dt 0b000101#6, []) := by
  refine ⟨?_, ?_, ?_⟩ <;> rfl

/-- `11 LL xxxx` with `xxxx` = 3, 4, 5, 6, one word at each length. -/
theorem test_decode_extended_words :
    decode [0b11000011#8, 0xC3#8] = .ok (.pen .e0 [], [0xC3#8]) ∧
    decode [0b11100100#8, 0x12#8, 0x34#8] = .ok (.clear .e2 [0x12#8, 0x34#8], []) ∧
    decode [0b11110101#8, 1#8, 2#8, 3#8, 4#8, 5#8] = .ok (.key .e4 [1#8, 2#8, 3#8, 4#8], [5#8]) ∧
    decode [0b11010110#8, 0xFF#8] = .ok (.col .e1 [0xFF#8], []) := by
  refine ⟨?_, ?_, ?_, ?_⟩ <;> rfl

/-- `11 LL xxxx` with the twelve reserved `xxxx`. -/
theorem test_decode_reserved_words :
    decode [0b11000000#8] = .ok (.rsvd0 .e0 [], []) ∧
    decode [0b11010001#8, 0x11#8] = .ok (.rsvd1 .e1 [0x11#8], []) ∧
    decode [0b11100010#8, 0x11#8, 0x22#8] = .ok (.rsvd2 .e2 [0x11#8, 0x22#8], []) ∧
    decode [0b11110111#8, 0x11#8, 0x22#8, 0x33#8, 0x44#8] = .ok (.rsvd7 .e4 [0x11#8, 0x22#8, 0x33#8, 0x44#8], []) ∧
    decode [0b11001000#8] = .ok (.rsvd8 .e0 [], []) ∧
    decode [0b11011001#8, 0x11#8] = .ok (.rsvd9 .e1 [0x11#8], []) ∧
    decode [0b11101010#8, 0x11#8, 0x22#8] = .ok (.rsvd10 .e2 [0x11#8, 0x22#8], []) ∧
    decode [0b11111011#8, 0x11#8, 0x22#8, 0x33#8, 0x44#8] = .ok (.rsvd11 .e4 [0x11#8, 0x22#8, 0x33#8, 0x44#8], []) ∧
    decode [0b11001100#8] = .ok (.rsvd12 .e0 [], []) ∧
    decode [0b11011101#8, 0x11#8] = .ok (.rsvd13 .e1 [0x11#8], []) ∧
    decode [0b11101110#8, 0x11#8, 0x22#8] = .ok (.rsvd14 .e2 [0x11#8, 0x22#8], []) ∧
    decode [0b11111111#8, 0x11#8, 0x22#8, 0x33#8, 0x44#8] = .ok (.rsvd15 .e4 [0x11#8, 0x22#8, 0x33#8, 0x44#8], []) := by
  refine ⟨?_, ?_, ?_, ?_, ?_, ?_, ?_, ?_, ?_, ?_, ?_, ?_⟩ <;> rfl

/-- R93: the buffer's end cuts a frame short. -/
theorem test_decode_truncated_words :
    decode [0xE6#8, 0xFE#8] = .ok (.col .e2 [0xFE#8], []) ∧ decode [0xD6#8] = .ok (.col .e1 [], []) ∧
    decode [] = .error .noHeaderByte := by
  refine ⟨?_, ?_, ?_⟩ <;> rfl

/-- 95_test_vectors.md section 2.2: the padded forms and table words without their payload bits. -/
theorem test_table_words :
    decodeTableWord 8 0xF6 = some (.col .e4 [0#8, 0#8, 0#8, 0#8]) ∧
    decodeTableWord 24 0x60CEE6 = some (.col .e2 [0xCE#8, 0x60#8]) ∧
    decodeTableWord 8 0x37 = some (.dx 0x37#6) ∧ decodeTableWord 8 0xDF = some (.rsvd15 .e1 [0#8]) := by decide

/-- R52, R56: the encoder's headers. -/
theorem test_encode_words :
    encode (.dy 3#6) = [0x43#8] ∧ encode (.pen .e2 [0xAA#8, 0xBB#8]) = [0xE3#8, 0xAA#8, 0xBB#8] ∧
    encode (.rsvd15 .e4 [1#8, 2#8, 3#8, 4#8]) = [0xFF#8, 1#8, 2#8, 3#8, 4#8] := by decide

/-- 95_test_vectors.md programs P2, and lines of P3 and P4; an operand out of range has no bytes. -/
theorem test_assembler_lines :
    assemble [.col .e1 3, .clear .e0 0, .pen .e0 0, .dx 10, .dy 0, .dy 10, .dx (-10), .dy 0, .dy (-10), .pen .e0 0, .dt 50, .key .e0 0] =
      some [0xD6#8, 0x03#8, 0xC4#8, 0xC3#8, 0x0A#8, 0x40#8, 0x4A#8, 0x36#8, 0x40#8, 0x76#8, 0xC3#8, 0xB2#8, 0xC5#8] ∧
    assemble [.inv .e4 15 0xC30543C3, .pen .e2 0xAABB, .inv .e1 1 0x7F, .col .e2 (-12704), .col .e0 0] =
      some [0xFF#8, 0xC3#8, 0x05#8, 0x43#8, 0xC3#8, 0xE3#8, 0xAA#8, 0xBB#8, 0xD1#8, 0x7F#8, 0xE6#8, 0xCE#8, 0x60#8, 0xC6#8] ∧
    assembleLine (.dx 32) = none ∧ assembleLine (.inv .e0 3 0) = none := by
  refine ⟨?_, ?_, ?_, ?_⟩ <;> decide

/-! ### The unpacker: 95_test_vectors.md sections 3 and 4 -/

theorem test_signed_vectors :
    signed 0x37 6 = -9 ∧ signed 0x1F 6 = 31 ∧ signed 0x20 6 = -32 ∧ signed 0xCE60 16 = -12704 ∧
    signed 0x800000 24 = -8388608 ∧ signed 0xFF0000FF 32 = -16776961 := by decide

theorem test_operand_vectors :
    decOperand 0x7F#8 [] = -1 ∧ decOperand 0xA0#8 [] = 32 ∧ decOperand 0xC6#8 [] = 0 ∧
    decOperand 0xF6#8 [0x12#8, 0x34#8, 0x56#8, 0x78#8] = 305419896 ∧ decOperand 0xD3#8 [0x99#8] = -103 ∧
    decOperand 0xE6#8 [0xFE#8] = -2 ∧ decOperand 0xF6#8 [0x80#8, 0#8, 0#8] = -8388608 := by decide

theorem test_dec_ports :
    dec 0xE6#8 2 0xCE#8 0x60#8 0#8 0#8 = { opcode := 6#3, e := 2#3, flen := 3#3, operand := 0xFFFFCE60#32 } ∧
    dec 0xBF#8 0 9#8 9#8 9#8 9#8 = { opcode := 2#3, e := 0#3, flen := 1#3, operand := 63#32 } := by decide

/-! ### One step of each instruction: 95_test_vectors.md section 5 -/

/-- A machine at the head of a buffer: `(CUR; X, Y; PX, PY; PEN)` as that section writes it, with `CUR = 0`. -/
def at0 (x y px py : Int) (pen : Bool) (bytes : List Byte) : State :=
  { State.load bytes with
    x := BitVec.ofInt 64 x, y := BitVec.ofInt 64 y, px := BitVec.ofInt 64 px, py := BitVec.ofInt 64 py, pen := pen }

/-- The state a step answers. -/
def stepped (s : State) : State :=
  match step s with
  | .next t => t
  | .fault _ => s
  | .refused _ => s

/-- The registers as integers. -/
def regs (s : State) : Nat × Int × Int × Int × Int × Bool :=
  (s.cur, s.x.toInt, s.y.toInt, s.px.toInt, s.py.toInt, s.pen)

/-- Row 1. -/
theorem test_dx_moves_left : regs (stepped (at0 0 0 0 0 false [0x37#8])) = (1, -9, 0, 0, 0, false) := by decide

/-- Row 5: the wrap. -/
theorem test_dx_wraps :
    regs (stepped (at0 9223372036854775807 0 0 0 false [0x01#8])) = (1, -9223372036854775808, 0, 0, 0, false) := by
  decide

/-- Row 12: the line starts at the old anchor and ends at the new position. -/
theorem test_dy_draws :
    regs (stepped (at0 1 2 3 4 true [0x7F#8])) = (1, 1, 1, 1, 1, true) ∧
    (stepped (at0 1 2 3 4 true [0x7F#8])).commands = [.line 3#64 4#64 1#64 1#64] := by decide

/-- Row 11: the pen is up. -/
theorem test_dy_records_without_drawing :
    regs (stepped (at0 1 2 3 4 false [0x60#8])) = (1, 1, -30, 1, -30, false) ∧
    (stepped (at0 1 2 3 4 false [0x60#8])).commands = [] := by decide

/-- Row 16: bit 5 set stays unsigned. -/
theorem test_dt_unsigned : (stepped (at0 0 0 0 0 false [0xA0#8])).commands = [.pause 320] := by decide

/-- Row 14: `Pause(0)` is sent. -/
theorem test_dt_zero : (stepped (at0 1 2 3 4 true [0x80#8])).commands = [.pause 0] := by decide

/-- Row 20. -/
theorem test_pen_padded :
    regs (stepped (at0 1 2 3 4 false [0xE3#8, 0xAA#8, 0xBB#8])) = (3, 1, 2, 3, 4, true) := by decide

/-- Row 19. -/
theorem test_pen_up : regs (stepped (at0 1 2 3 4 true [0xC3#8])) = (1, 1, 2, 3, 4, false) := by decide

/-- Row 22. -/
theorem test_clear_padded :
    regs (stepped (at0 1 2 3 4 true [0xF4#8, 1#8, 2#8, 3#8, 4#8])) = (5, 1, 2, 3, 4, true) ∧
    (stepped (at0 1 2 3 4 true [0xF4#8, 1#8, 2#8, 3#8, 4#8])).commands = [.clear] := by decide

/-- Row 24. -/
theorem test_key_padded :
    (stepped (at0 1 2 3 4 true [0xD5#8, 0#8])).commands = [.key] ∧
    (stepped (at0 1 2 3 4 true [0xD5#8, 0#8])).cur = 2 := by decide

/-- Rows 25, 28. -/
theorem test_col_full :
    (stepped (at0 1 2 3 4 true [0xC6#8])).commands = [.colour 0] ∧
    (stepped (at0 1 2 3 4 true [0xF6#8, 0xFF#8, 0#8, 0#8, 0xFF#8])).commands = [.colour (-16776961)] := by decide

/-- Rows 29, 30: truncated. -/
theorem test_col_truncated :
    (stepped (at0 1 2 3 4 true [0xE6#8, 0xFE#8])).commands = [.colour (-2)] ∧
    (stepped (at0 1 2 3 4 true [0xE6#8, 0xFE#8])).cur = 3 ∧
    (stepped (at0 1 2 3 4 true [0xD6#8])).commands = [.colour 0] := by decide

/-- Row 31. -/
theorem test_invalid_skipped :
    regs (stepped (at0 1 2 3 4 true [0xFF#8, 1#8, 2#8, 3#8, 4#8])) = (5, 1, 2, 3, 4, true) ∧
    (stepped (at0 1 2 3 4 true [0xFF#8, 1#8, 2#8, 3#8, 4#8])).reports = [.invalidInstruction 0 0xFF#8] ∧
    (stepped (at0 1 2 3 4 true [0xFF#8, 1#8, 2#8, 3#8, 4#8])).commands = [] := by decide

/-- Each reserved code reports its own header (rows 32 to 34 and section 2.2). -/
theorem test_reserved_headers :
    ([0xC0#8, 0xC1#8, 0xC2#8, 0xC7#8, 0xC8#8, 0xC9#8, 0xCA#8, 0xCB#8, 0xCC#8, 0xCD#8, 0xCE#8, 0xCF#8].all fun h =>
      (stepped (at0 0 0 0 0 false [h])).reports == [.invalidInstruction 0 h]) = true := by decide

/-- P7: the empty buffer. -/
theorem test_empty_buffer : (State.load []).status = .done ∧ stepped (State.load []) = State.load [] := by decide

/-- A frame placed by the host is the first one run after reset, whole, and the machine is then done. -/
theorem test_placed_word :
    (stepped (State.reset.withFetchWord 24 0x60CEE6)).commands = [.colour (-12704)] ∧
    (stepped (State.reset.withFetchWord 24 0x60CEE6)).status = .done ∧
    (stepped (State.reset.withFetchWord 8 0xF3)).cur = 5 := by decide

/-! ### The hardware form -/

/-- 93_implementation_defined.md U10, 43_extended_ops.md R117: a last `KEY` that is never answered leaves the run short of `DONE`, and
the press completes it. -/
theorem test_unanswered_key_is_not_done :
    portRun [⟨false, true⟩, ⟨false, false⟩, ⟨false, false⟩] ⟨State.load [0xC5#8], none⟩ =
      .next ⟨State.load [0xC5#8], some .key⟩ ∧
    (PortState.mk (State.load [0xC5#8]) (some .key)).status = .running ∧
    (State.load [0xC5#8]).status = .running ∧
    portStep ⟨false, true⟩ ⟨State.load [0xC5#8], some .key⟩ = .next ⟨stepped (State.load [0xC5#8]), none⟩ ∧
    (PortState.mk (stepped (State.load [0xC5#8])) none).status = .done := by
  refine ⟨rfl, rfl, by decide, rfl, by decide⟩

/-- 60_exceptions.md R141: a line's four coordinates on the four lanes, in the order of R20. -/
theorem test_line_on_command_port :
    let port := (PortState.mk State.reset (some (.line 1#64 2#64 3#64 4#64))).cmdPort
    port.valid = true ∧ port.a = 1#64 ∧ port.b = 2#64 ∧ port.c = 3#64 ∧ port.d = 4#64 := ⟨rfl, rfl, rfl, rfl, rfl⟩

/-! ### Witnesses: for each statement with hypotheses, operands and a state that meet them together -/

theorem witness_FullFrameRoundTrip :
    Instr.wf (.col .e2 [0xCE#8, 0x60#8]) = true ∧ Instr.full (.col .e2 [0xCE#8, 0x60#8]) = true ∧
    Instr.full (.dx 63#6) = true := by decide

theorem witness_AssembledLineMeansItsOperand :
    ((-32 : Int) ≤ -32 ∧ (31 : Int) ≤ 31 ∧ ¬ (32 : Int) ≤ 31) ∧ (63 ≤ 63 ∧ ¬ 64 ≤ 63) ∧
    (-2 ^ (8 * ExtLen.e2.count - 1) ≤ (-32768 : Int) ∧ ¬ -2 ^ (8 * ExtLen.e2.count - 1) ≤ (-32769 : Int)) ∧
    (255 < 2 ^ (8 * ExtLen.e1.count) ∧ ¬ 1 < 2 ^ (8 * ExtLen.e0.count)) ∧
    (15 < 16 ∧ 15 ∉ [3, 4, 5, 6] ∧ 0 < 2 ^ (8 * ExtLen.e0.count)) ∧
    assemble [.byte 255] = some [0xFF#8] ∧ assemble [.dx 1, .byte 256] = none ∧ assembleLine (.byte 256) = none := by
  refine ⟨?_, ?_, ?_, ?_, ?_, ?_, ?_, ?_⟩ <;> decide

theorem witness_LastFrameRoundTrip :
    Instr.wf (.col .e4 [1#8, 2#8, 3#8]) = true ∧ Instr.full (.col .e4 [1#8, 2#8, 3#8]) = false := by decide

theorem witness_DecodedFrameEncodesBack :
    decode [0xE6#8, 0xFE#8] = .ok (.col .e2 [0xFE#8], []) ∧ Instr.full (.col .e2 [0xFE#8]) = false ∧
    decode [0xC3#8, 0x05#8] = .ok (.pen .e0 [], [0x05#8]) := by
  refine ⟨?_, ?_, ?_⟩ <;> rfl

theorem witness_LengthAndOpcodeBitsAreIndependent :
    192 ≤ (0xC0#8).toNat ∧ 192 ≤ (0xCF#8).toNat ∧ (0xC0#8).toNat / 16 = (0xCF#8).toNat / 16 ∧
    (0xC3#8).toNat % 16 = (0xF3#8).toNat % 16 := by decide

theorem witness_SignConversionOfField :
    (1 ≤ 6 ∧ 32 < 2 ^ 6 ∧ 2 ^ (6 - 1) ≤ 32) ∧ (31 < 2 ^ 6 ∧ 31 < 2 ^ (6 - 1)) ∧ (1 ≤ 1 ∧ 1 < 2 ^ 1) := by decide

theorem witness_SignConversionIsSignExtension : 1 ≤ 8 ∧ 8 ≤ 32 ∧ 0x80 < 2 ^ 8 := by decide

theorem witness_CompactOperand :
    (0x7F#8).toNat < 128 ∧ (128 ≤ (0x80#8).toNat ∧ (0x80#8).toNat < 192) ∧
    (128 ≤ (0xBF#8).toNat ∧ (0xBF#8).toNat < 192) := by decide

theorem witness_ExtendedOperandWithoutExtension : 192 ≤ (0xC6#8).toNat ∧ (0xC6#8).toNat / 16 % 4 = 0 := by decide

theorem witness_TruncatedToHeaderOperandIsZero : 192 ≤ (0xD6#8).toNat ∧ (0xD6#8).toNat / 16 % 4 ≠ 0 := by decide

theorem witness_FullPayloadOperand :
    192 ≤ (0xD6#8).toNat ∧ extraCount 0xD6#8 = ([] : List Byte).length + 1 ∧
    extraCount 0xF6#8 = [0#8, 0#8, 0#8].length + 1 := by decide

theorem witness_TruncatedPayloadOperand :
    192 ≤ (0xF6#8).toNat ∧ [0#8, 0#8].length + 1 < extraCount 0xF6#8 ∧
    ([] : List Byte).length + 1 < extraCount 0xE6#8 := by decide

theorem witness_PayloadRecoveredFromOperand :
    [0x80#8, 1#8].length = [0x80#8, 1#8].length ∧ payloadOperand [0x80#8, 1#8] = payloadOperand [0x80#8, 1#8] := by decide

theorem witness_OperandFitsBus : [0x80#8, 0#8, 0#8, 0#8].length ≤ 4 := by decide

theorem witness_DecPortsCarryTriple :
    (0xBF#8).toNat < 192 ∧ 192 ≤ (0xC0#8).toNat ∧ (3 ≤ (0xC6#8).toNat % 16 ∧ (0xC6#8).toNat % 16 ≤ 6) := by decide

theorem witness_FetchGathersBytesPresent :
    (State.load [0xE6#8, 0xFE#8]).cur < (State.load [0xE6#8, 0xFE#8]).len := by decide

theorem witness_ReadsStayInsideBuffer : 0 < [0xC3#8].length ∧ [0xC3#8].length ≤ 1 := by decide

theorem witness_StepRunsDecodedFrame :
    decode (State.load [0xD6#8, 0x05#8, 0xC3#8]).remaining = .ok (.col .e1 [0x05#8], [0xC3#8]) := by rfl

theorem witness_PlacedWordRunsNext :
    State.reset.mem.wf = true ∧ decodeTableWord 8 0xF6 = some (.col .e4 [0#8, 0#8, 0#8, 0#8]) := by decide

theorem witness_DoneStaysDone : State.reset.len ≤ State.reset.cur := by decide

theorem witness_CursorAdvancesByDeclaredLength :
    (State.load [0xF6#8]).memRead (State.load [0xF6#8]).cur = .ok 0xF6#8 ∧
    (State.load [0xF6#8]).len < (State.load [0xF6#8]).cur + (1 + extraCount 0xF6#8) := by
  exact ⟨rfl, by decide⟩

theorem witness_RunReachesDone :
    core.run 1 (State.load [0xC3#8]) = .next (stepped (State.load [0xC3#8])) ∧
    (stepped (State.load [0xC3#8])).status = .done := by
  exact ⟨rfl, by decide⟩

theorem witness_StepReadsOnlyItsFrame :
    (State.load [0xC3#8, 0x05#8]).memRead 0 = .ok 0xC3#8 ∧
    step (State.load [0xC3#8, 0x05#8]) = .next (stepped (State.load [0xC3#8, 0x05#8])) ∧
    ∀ a, 0 ≤ a → a < 0 + frameLength 0xC3#8 → a < 2 →
      Memory.read [(0, 0xC3#8)] a = (State.load [0xC3#8, 0x05#8]).mem.read a := by
  refine ⟨rfl, rfl, fun a _ h _ => ?_⟩
  have : frameLength 0xC3#8 = 1 := by decide
  have : a = 0 := by omega
  subst this
  decide

theorem witness_FrameBoundariesDependOnBufferAlone :
    (at0 0 0 0 0 false [0x05#8]).cur = (at0 7 7 7 7 true [0x05#8]).cur ∧
    (at0 0 0 0 0 false [0x05#8]).len = (at0 7 7 7 7 true [0x05#8]).len ∧
    (at0 0 0 0 0 false [0x05#8]).mem = (at0 7 7 7 7 true [0x05#8]).mem ∧
    core.run 1 (at0 0 0 0 0 false [0x05#8]) = .next (stepped (at0 0 0 0 0 false [0x05#8])) ∧
    core.run 1 (at0 7 7 7 7 true [0x05#8]) = .next (stepped (at0 7 7 7 7 true [0x05#8])) := ⟨rfl, rfl, rfl, rfl, rfl⟩

theorem witness_DxMovesX_and_DyMovesDrawsAndRecords :
    -2 ^ 63 ≤ (BitVec.ofInt 64 (2 ^ 63 - 32)).toInt + 31 ∧ (BitVec.ofInt 64 (2 ^ 63 - 32)).toInt + 31 < 2 ^ 63 := by decide

theorem witness_PenToggles :
    exec (.pen .e1 [9#8]) State.reset = .next (State.reset.togglePen) := rfl

theorem witness_ColEmitsSignedPayload : ([0x60#8] : List Byte).length + 1 ≤ ExtLen.e2.count := by decide

theorem witness_FrameOfEveryInstruction :
    (∃ t, exec (.dy 3#6) (at0 5 0 0 0 true []) = .next t) ∧
    classify (Instr.header (.dy 3#6)) = .dy ∧ classify (Instr.header (.dx 3#6)) ∈ [Opcode.dx, .pen, .invalid] := by
  exact ⟨⟨_, rfl⟩, by decide, by decide⟩

theorem witness_RegistersHaveTheirOneWriter :
    ((State.load [0x05#8]).memRead 0 = .ok 0x05#8 ∧ step (State.load [0x05#8]) = .next (stepped (State.load [0x05#8])) ∧
      (stepped (State.load [0x05#8])).x ≠ (State.load [0x05#8]).x) ∧
    ((State.load [0x7F#8]).memRead 0 = .ok 0x7F#8 ∧ step (State.load [0x7F#8]) = .next (stepped (State.load [0x7F#8])) ∧
      (stepped (State.load [0x7F#8])).y ≠ (State.load [0x7F#8]).y) ∧
    ((State.load [0xF3#8]).memRead 0 = .ok 0xF3#8 ∧ step (State.load [0xF3#8]) = .next (stepped (State.load [0xF3#8])) ∧
      (stepped (State.load [0xF3#8])).pen ≠ (State.load [0xF3#8]).pen) := by
  refine ⟨⟨rfl, rfl, ?_⟩, ⟨rfl, rfl, ?_⟩, rfl, rfl, ?_⟩ <;> decide

theorem witness_AtMostOneEventAStep_and_TracesAreWriteOnly :
    step (State.load [0xC4#8]) = .next (stepped (State.load [0xC4#8])) ∧
    (stepped (State.load [0xC4#8])).commands = [.clear] := by
  exact ⟨rfl, by decide⟩

theorem witness_InvalidFrameIsSkippedWhole :
    (State.load [0xFF#8]).memRead 0 = .ok 0xFF#8 ∧ 192 ≤ (0xFF#8).toNat ∧ (0xFF#8).toNat % 16 ∉ [3, 4, 5, 6] ∧
    (0xC2#8).toNat % 16 ∉ [3, 4, 5, 6] := by
  exact ⟨rfl, by decide, by decide, by decide⟩

theorem witness_TruncatedColUsesBytesPresent :
    (State.load [0xE6#8, 0xFE#8]).memRead 0 = .ok 0xE6#8 ∧ (0xE6#8).toNat ∈ [0xE6, 0xF6] ∧
    0 + 1 < (State.load [0xE6#8, 0xFE#8]).len ∧ (State.load [0xE6#8, 0xFE#8]).len < 0 + frameLength 0xE6#8 := by
  exact ⟨rfl, by decide, by decide, by decide⟩

theorem witness_DxThenDyDrawsOneDiagonal :
    (at0 0 0 0 0 true [0x05#8, 0x43#8]).memRead 0 = .ok 0x05#8 ∧
    (at0 0 0 0 0 true [0x05#8, 0x43#8]).memRead 1 = .ok 0x43#8 ∧ (0x05#8).toNat < 64 ∧ 64 ≤ (0x43#8).toNat ∧
    (0x43#8).toNat < 128 ∧ (at0 0 0 0 0 true [0x05#8, 0x43#8]).pen = true := by
  refine ⟨rfl, rfl, ?_, ?_, ?_, rfl⟩ <;> decide

theorem witness_AnchorIsPositionAtLastDy :
    (State.load [0x43#8, 0x05#8]).memRead 0 = .ok 0x43#8 ∧ classify 0x43#8 = .dy ∧
    step (State.load [0x43#8, 0x05#8]) = .next (stepped (State.load [0x43#8, 0x05#8])) ∧
    core.run 1 (stepped (State.load [0x43#8, 0x05#8])) = .next (stepped (stepped (State.load [0x43#8, 0x05#8]))) ∧
    ∀ m v g, m < 1 → core.run m (stepped (State.load [0x43#8, 0x05#8])) = .next v → v.memRead v.cur = .ok g →
      classify g ≠ .dy := by
  refine ⟨rfl, by decide, rfl, rfl, ?_⟩
  intro m v g hm hv hg
  have : m = 0 := by omega
  subst this
  cases hv
  have h5 : (stepped (State.load [0x43#8, 0x05#8])).memRead (stepped (State.load [0x43#8, 0x05#8])).cur = .ok 0x05#8 := rfl
  rw [h5] at hg
  cases hg
  decide

theorem witness_AnchorIsPositionAtLastDy_start :
    core.run 1 (State.load [0x05#8]) = .next (stepped (State.load [0x05#8])) ∧
    ∀ m v g, m < 1 → core.run m (State.load [0x05#8]) = .next v → v.memRead v.cur = .ok g → classify g ≠ .dy := by
  refine ⟨rfl, ?_⟩
  intro m v g hm hv hg
  have : m = 0 := by omega
  subst this
  cases hv
  have h5 : (State.load [0x05#8]).memRead (State.load [0x05#8]).cur = .ok 0x05#8 := rfl
  rw [h5] at hg
  cases hg
  decide

theorem witness_BlockingCommandsComeFromDtAndKey :
    (State.load [0xC5#8]).memRead 0 = .ok 0xC5#8 ∧ step (State.load [0xC5#8]) = .next (stepped (State.load [0xC5#8])) ∧
    emitted (State.load [0xC5#8]) (stepped (State.load [0xC5#8])) = some .key := by
  exact ⟨rfl, rfl, by decide⟩

theorem witness_ResetValues : State.reset = State.reset ∧ State.load [0xC3#8] = State.load [0xC3#8] := ⟨rfl, rfl⟩

theorem witness_CanonicalBuffersAreEqual :
    Memory.wf [(0, 1#8), (7, 2#8)] = true ∧
    ∀ a, Memory.read [(0, 1#8), (7, 2#8)] a = Memory.read [(0, 1#8), (7, 2#8)] a := ⟨by decide, fun _ => rfl⟩

/-- A state inside a run, with one report behind it. -/
theorem witness_StepKeepsInvariant :
    State.Inv { State.load [0xC0#8, 0x85#8] with cur := 1, reports := [.invalidInstruction 0 0xC0#8] } ∧
    step { State.load [0xC0#8, 0x85#8] with cur := 1, reports := [.invalidInstruction 0 0xC0#8] } =
      .next (stepped { State.load [0xC0#8, 0x85#8] with cur := 1, reports := [.invalidInstruction 0 0xC0#8] }) := by
  refine ⟨⟨by decide, by decide, by decide, rfl, ?_, ?_, by decide⟩, rfl⟩
  · intro c hc; cases hc
  · intro r hr
    simp only [List.mem_singleton] at hr
    subst hr
    exact ⟨by decide, by decide, by decide, by decide⟩

theorem witness_PositionsStayExact :
    (State.load [0x20#8]).len < 2 ^ 57 ∧ State.Exact (State.load [0x20#8]) ∧
    step (State.load [0x20#8]) = .next (stepped (State.load [0x20#8])) ∧ (State.load [0x20#8]).memRead 0 = .ok 0x20#8 ∧
    classify 0x20#8 = .dx ∧ classify 0x40#8 = .dy := by
  refine ⟨by decide, ⟨?_, ?_, ?_, ?_⟩, rfl, rfl, by decide, by decide⟩ <;> (unfold Pos.within; decide)

theorem witness_CursorFitsItsBus :
    Config.admitsLength Config.addrWidth (State.load [0xF3#8]).len ∧
    (State.load [0xF3#8]).cur < 2 ^ Config.addrWidth ∧
    step (State.load [0xF3#8]) = .next (stepped (State.load [0xF3#8])) ∧
    (State.load [0xF3#8]).cur < (State.load [0xF3#8]).len := by
  refine ⟨?_, ?_, rfl, ?_⟩ <;> decide

/-- Three checks on small data make a state of the hardware form at the start of a run one of its invariant. -/
theorem presented_inv {bytes : List Byte} {c : Command}
    (h : Memory.wf (State.load bytes).mem = true ∧ Memory.below (State.load bytes).len (State.load bytes).mem = true ∧
      (State.load bytes).nextCommand = some c) :
    PortState.Inv { core := State.load bytes, outstanding := some c } where
  core :=
    { canonical := h.1
      inside := h.2.1
      cursor := Nat.zero_le _
      anchor := rfl
      commands := fun _ h => nomatch h
      reported := fun _ h => nomatch h
      ordered := List.Pairwise.nil }
  command := fun _ hd => Option.some.inj hd ▸ h.2.2

theorem witness_OutstandingCommandHoldsMachine :
    PortState.Inv { core := State.load [0xC5#8], outstanding := some .key } ∧
    PortState.Inv { core := State.load [0x80#8], outstanding := some (.pause 0) } ∧
    PortState.Inv { core := State.load [0xC6#8], outstanding := some (.colour 0) } ∧
    (PortState.mk (at0 0 0 0 0 true [0x40#8]) (some (.line 0#64 0#64 0#64 0#64))).outstanding =
      some (.line 0#64 0#64 0#64 0#64) ∧
    (PortState.mk State.reset (some .clear)).outstanding = some .clear ∧
    ∀ inp ∈ [Inputs.mk false false], inp.reset = false ∧ inp.cmdReady = false :=
  ⟨presented_inv (by decide), presented_inv (by decide), presented_inv (by decide), rfl, rfl, by decide⟩

theorem witness_PortRunRefinesCoreRun :
    (∀ inp ∈ [Inputs.mk false false, Inputs.mk false true], inp.reset = false) ∧
    PortState.Inv { core := State.load [0x85#8, 0xC5#8], outstanding := some (.pause 50) } :=
  ⟨by decide, presented_inv (by decide)⟩

/-- A surface that is late: one frame with its command presented, served in the second of three rounds. -/
theorem witness_ServedPortRunReachesDone :
    PortState.Inv { core := State.load [0xC5#8], outstanding := some .key } ∧
    (∀ inp ∈ [Inputs.mk false false, Inputs.mk false true, Inputs.mk false true], inp.reset = false) ∧
    2 * ((State.load [0xC5#8]).len - (State.load [0xC5#8]).cur) ≤
      [Inputs.mk false false, Inputs.mk false true, Inputs.mk false true].countP (fun inp => inp.cmdReady) :=
  ⟨presented_inv (by decide), by decide, by decide⟩

theorem witness_StepKeepsInvariant_port :
    PortState.Inv { core := State.load [0xC5#8], outstanding := some .key } ∧
    portStep { reset := false, cmdReady := true } { core := State.load [0xC5#8], outstanding := some .key } =
      .next { core := stepped (State.load [0xC5#8]), outstanding := none } :=
  ⟨presented_inv (by decide), rfl⟩

theorem witness_ReportPulseExactlyOnReservedHeader :
    ((State.load [0xC0#8]).memRead 0 = .ok 0xC0#8 ∧ step (State.load [0xC0#8]) = .next (stepped (State.load [0xC0#8])) ∧
      classify 0xC0#8 = .invalid) ∧
    PortState.Inv { core := State.load [0xC5#8], outstanding := some .key } ∧
    (State.load [0xC5#8]).memRead 0 = .ok 0xC5#8 ∧ classify 0xC5#8 ≠ .invalid ∧
    portStep { reset := false, cmdReady := false } { core := State.load [0xC5#8], outstanding := some .key } =
      .next { core := State.load [0xC5#8], outstanding := some .key } :=
  ⟨⟨rfl, rfl, by decide⟩, presented_inv (by decide), rfl, by decide, rfl⟩

end Sys2Proof.Tests
end

section
/-! SUPPORT. The state family (10_state.md): what a frame and a step leave unchanged, that the traces are write-only, the
anchor, the cursor's bus, and the start of a run. -/

namespace Sys2Proof.Machine

/-! ### A frame's effect by its opcode -/

theorem decOperand_of_dt {h : Byte} (hc : classify h = .dt) (ext : List Byte) : decOperand h ext = (hdrImm h).toNat := by
  have hsel : (hdrSel h).toNat = 2 := by revert h; decide
  simp only [decOperand, hsel, pauseOperand]

/-- A frame's effect is the one that R95 gives its header's opcode with DEC's operand. -/
theorem effect_eq_applyOpcode (h : Byte) (ext : List Byte) (s : State) :
    effect (frameInstr h ext) s = applyOpcode (classify h) (decOperand h ext) h s := by
  obtain ⟨c, e⟩ | ⟨c, e⟩ | ⟨c, e⟩ | ⟨c, e⟩ | ⟨c, e⟩ | ⟨c, e⟩ | ⟨c, o, e⟩ | ⟨c, e⟩ := effect_cases h ext s <;> rw [c, e]
  case inr.inl => cases hp : s.pen <;> simp [applyOpcode, hp]
  case inr.inr.inl =>
    have ms : ((hdrImm h).toNat * 10 : Int).toNat = pauseDuration (hdrImm h).toNat := by
      simp only [pauseDuration, pauseScale]; omega
    simp only [applyOpcode, decOperand_of_dt c, ms]
  case inr.inr.inr.inr.inr.inr.inl => simp only [applyOpcode, o]
  all_goals rfl

/-- What an opcode's effect may write, of the registers and the traces: one writer each for `X`, for `Y` with the anchor, for
the pen, and the traces by their own opcodes (43_extended_ops.md section 3). -/
structure WritesOnly (op : Opcode) (s t : State) : Prop where
  x : op ≠ .dx → t.x = s.x
  position : op ≠ .dy → t.y = s.y ∧ t.px = s.px ∧ t.py = s.py
  pen : t.pen = if op = .pen then !s.pen else s.pen
  commands : op ∈ [.dx, .pen, .invalid] → t.commands = s.commands
  reports : op ≠ .invalid → t.reports = s.reports

theorem applyOpcode_writesOnly (op : Opcode) (operand : Int) (h : Byte) (s : State) :
    WritesOnly op s (applyOpcode op operand h s) := by
  cases op <;> constructor <;> simp [applyOpcode]

theorem effect_writesOnly (h : Byte) (ext : List Byte) (s : State) :
    WritesOnly (classify h) s (effect (frameInstr h ext) s) :=
  effect_eq_applyOpcode h ext s ▸ applyOpcode_writesOnly ..

/-- A buffer with the same cells and the same length reads the same. -/
theorem SameBuffer.of_fields {s t : State} (hm : t.mem = s.mem) (hl : t.len = s.len) : SameBuffer s t :=
  ⟨hl, fun a => by simp only [State.memRead, hm, hl]⟩

/-- Settles O40: every frame is its header's, and a header's opcode writes only what is its own. -/
theorem frameOfEveryInstruction : Obligations.FrameOfEveryInstruction := by
  intro i s t h
  obtain rfl : effect i s = t := by rw [exec_next] at h; injection h
  obtain ⟨hcur, hmem, hlen⟩ := effect_frame i s
  have hw := effect_writesOnly i.header i.payload s
  rw [(header_decodes i).1] at hw
  exact ⟨hcur, .of_fields hmem hlen, hw.x, hw.position, fun hp => by rw [hw.pen, if_neg hp], hw.commands, hw.reports⟩

/-! ### One writer for each register -/

/-- A running machine's step writes only what the opcode at the cursor may: the advance touches neither register nor trace. -/
theorem step_writesOnly {s t : State} {h : Byte} (hr : s.memRead s.cur = .ok h) (hs : step s = .next t) :
    WritesOnly (classify h) s t := by
  obtain ⟨hlt, rfl⟩ := State.memRead_ok hr
  rw [step_running hlt] at hs
  injection hs with hs
  obtain ⟨hx, hpos, hpen, hcmd, hrep⟩ := effect_writesOnly (s.mem.read s.cur) s.gathered s
  subst hs
  exact ⟨hx, hpos, hpen, hcmd, hrep⟩

theorem classify_eq_dx_iff (h : Byte) : classify h = .dx ↔ h.toNat < 64 := by revert h; decide

theorem classify_eq_dy_iff (h : Byte) : classify h = .dy ↔ 64 ≤ h.toNat ∧ h.toNat < 128 := by revert h; decide

theorem classify_eq_pen_iff (h : Byte) : classify h = .pen ↔ h.toNat ∈ [0xC3, 0xD3, 0xE3, 0xF3] := by revert h; decide

/-- Settles O41: a register that changed has its one writer's opcode at the cursor, which fixes the header's range. -/
theorem registersHaveTheirOneWriter : Obligations.RegistersHaveTheirOneWriter := by
  intro s t h hr hs
  have hw := step_writesOnly hr hs
  rw [← classify_eq_dx_iff, ← classify_eq_dy_iff, ← classify_eq_pen_iff]
  refine ⟨fun hx => ?_, fun hpos => ?_, ?_⟩
  · by_contra hne
    exact hx (hw.x hne)
  · by_contra hne
    obtain ⟨hy, hpx, hpy⟩ := hw.position hne
    simp [hy, hpx, hpy] at hpos
  · rw [hw.pen]
    split <;> simp [*]

/-! ### The traces are write-only -/

/-- An opcode's effect from other traces: the same registers and buffer, and the same events after those traces. -/
theorem applyOpcode_otherTraces (op : Opcode) (operand : Int) (h : Byte) (s : State) (cs : List Command) (rs : List Report) :
    applyOpcode op operand h { s with commands := cs, reports := rs } =
      { applyOpcode op operand h s with
        commands := cs ++ (applyOpcode op operand h s).commands.drop s.commands.length
        reports := rs ++ (applyOpcode op operand h s).reports.drop s.reports.length } := by
  cases op with
  | dy => cases hp : s.pen <;> simp [applyOpcode, hp]
  | _ => simp [applyOpcode]

/-- Settles O43: fetch reads no trace, and an opcode's effect only appends to them. -/
theorem tracesAreWriteOnly : Obligations.TracesAreWriteOnly := by
  intro s t cs rs hs
  obtain ⟨hc, rfl⟩ | ⟨hc, rfl⟩ := step_cases hs
  · rw [step_done (s := { t with commands := cs, reports := rs }) hc]
    simp
  · have hg : ({ s with commands := cs, reports := rs } : State).gathered = s.gathered := rfl
    rw [step_running (s := { s with commands := cs, reports := rs }) hc, hg]
    simp only [effect_eq_applyOpcode, applyOpcode_otherTraces]
    rfl

/-! ### The anchor -/

theorem step_keeps_anchor {s t : State} (hs : step s = .next t)
    (hne : ∀ g, s.memRead s.cur = .ok g → classify g ≠ .dy) : t.px = s.px ∧ t.py = s.py := by
  by_cases hc : s.cur < s.len
  · have hr := State.memRead_inside hc
    exact ((step_writesOnly hr hs).position (hne _ hr)).2
  · obtain ⟨-, rfl⟩ | ⟨hlt, -⟩ := step_cases hs
    · exact ⟨rfl, rfl⟩
    · exact absurd hlt hc

/-- A run that executes no `DY` leaves the anchor where it stood. -/
theorem run_keeps_anchor {n : Nat} {s u : State} (hu : core.run n s = .next u)
    (hne : ∀ m v g, m < n → core.run m s = .next v → v.memRead v.cur = .ok g → classify g ≠ .dy) :
    u.px = s.px ∧ u.py = s.py := by
  induction n generalizing s with
  | zero => cases hu; exact ⟨rfl, rfl⟩
  | succ n ih =>
    obtain ⟨t, ht⟩ := step_total s
    obtain ⟨hpx, hpy⟩ := step_keeps_anchor ht fun g => hne 0 s g n.succ_pos rfl
    obtain ⟨hpx', hpy'⟩ := ih (run_succ ht ▸ hu) fun m v g hm hv => hne (m + 1) v g (by omega) (by rw [run_succ ht, hv])
    exact ⟨hpx'.trans hpx, hpy'.trans hpy⟩

/-- `DY` records the position it moves to (R106). -/
theorem step_dy_records {s t : State} {h : Byte} (hr : s.memRead s.cur = .ok h) (hdy : classify h = .dy)
    (hs : step s = .next t) : t.px = t.x ∧ t.py = t.y := by
  obtain ⟨hlt, rfl⟩ := State.memRead_ok hr
  rw [step_running hlt, effect_eq_applyOpcode, hdy] at hs
  injection hs with hs
  subst hs
  exact ⟨rfl, rfl⟩

/-- Settles O47: `DY` sets the anchor to the position, reset sets it to the origin, and a run without `DY` keeps it. -/
theorem anchorIsPositionAtLastDy : Obligations.AnchorIsPositionAtLastDy := by
  refine ⟨fun s t u h n hr hdy hs hu hne => ?_, fun bytes u n hu hne => run_keeps_anchor hu hne⟩
  obtain ⟨hx, hy⟩ := step_dy_records hr hdy hs
  obtain ⟨hpx, hpy⟩ := run_keeps_anchor hu hne
  exact ⟨hpx.trans hx, hpy.trans hy⟩

/-! ### The cursor on its bus -/

/-- R96: a running machine's step moves the cursor by the declared frame length. -/
theorem step_running_cur {s t : State} (hc : s.cur < s.len) (hs : step s = .next t) :
    t.cur = s.cur + frameLength (s.mem.read s.cur) := by
  rw [step_running hc] at hs
  injection hs with hs
  rw [← hs, State.advance_cur, (effect_frame _ s).1]

/-- Settles O57: the cursor leaves the buffer by at most 4, which the bus admits, so no sum wraps. -/
theorem cursorFitsItsBus : Obligations.CursorFitsItsBus := by
  intro w s t hlen hcur hs
  have hfit : t.cur < 2 ^ w := by
    obtain ⟨-, rfl⟩ | ⟨hlt, -⟩ := step_cases hs
    · exact hcur
    · have hstep := step_cur hs
      simp only [Config.admitsLength, Config.maxFrameLength] at hlen
      omega
  refine ⟨by rw [BitVec.toNat_ofNat, Nat.mod_eq_of_lt hfit], fun hlt => ?_⟩
  rw [step_running_cur hlt hs, BitVec.ofNat_add]

/-! ### The start of a run -/

/-- Reset is the start of a run over the empty buffer, so a fact about every loaded buffer holds of it. -/
theorem load_nil : State.load [] = State.reset := rfl

theorem status_running_iff (s : State) : s.status = .running ↔ s.cur < s.len := by
  unfold State.status
  split <;> simp_all

/-- Settles O50: the loaded state has reset's registers, and its cursor 0 decides the status. -/
theorem resetValues : Obligations.ResetValues := by
  intro bytes s hs
  obtain ⟨bs, rfl⟩ : ∃ bs, s = State.load bs := hs.elim (fun h => ⟨[], h.trans load_nil.symm⟩) fun h => ⟨bytes, h⟩
  refine ⟨rfl, rfl, rfl, rfl, rfl, rfl, rfl, rfl, status_running_iff _, ?_, rfl⟩
  exact (status_done_iff _).trans Nat.le_zero

theorem load_inv (bytes : List Byte) : (State.load bytes).Inv where
  canonical := Memory.loadAt_wf rfl 0 bytes
  inside := Memory.loadAt_below rfl bytes (Nat.zero_add _).le
  cursor := Nat.zero_le _
  anchor := rfl
  commands := fun _ h => nomatch h
  reported := fun _ h => nomatch h
  ordered := List.Pairwise.nil

/-- With no command outstanding the hardware form's invariant is the core's. -/
theorem State.Inv.idle {s : State} (hs : s.Inv) : PortState.Inv { core := s, outstanding := none } :=
  ⟨hs, fun _ h => nomatch h⟩

/-- Settles O53: loading keeps the buffer canonical and inside `LEN`, and nothing has been sent or reported. -/
theorem invariantHoldsAtStart : Obligations.InvariantHoldsAtStart := by
  have hreset : State.reset.Inv := load_nil ▸ load_inv []
  exact ⟨hreset, hreset.idle, fun bytes => ⟨load_inv bytes, (load_inv bytes).idle⟩⟩

end Sys2Proof.Machine
end

section
/-! SUPPORT. The memory family (20_memory.md): loaded bytes read back, canonical buffers are determined by what they read, and
a step reads no byte outside its frame. -/

namespace Sys2Proof.Machine

/-! ### Reads of a loaded buffer -/

theorem read_load {bytes : List Byte} {a : Nat} (h : a < bytes.length) : (State.load bytes).mem.read a = bytes[a] := by
  have hload := Memory.read_loadAt Memory.reset_wf 0 bytes a h
  rwa [Nat.zero_add] at hload

/-- Settles O21: below `LEN` the loader's byte is there, and from `LEN` on the read faults before it looks at the cells. -/
theorem readsStayInsideBuffer : Obligations.ReadsStayInsideBuffer := by
  intro bytes a
  refine ⟨fun h => ?_, fun h => State.memRead_outside h⟩
  rw [State.memRead_inside h, read_load h]

/-! ### Canonical buffers -/

@[simp] theorem Memory.read_cons_same (a : Nat) (b : Byte) (m : Memory) : Memory.read ((a, b) :: m) a = b := if_pos rfl

theorem Memory.read_head_ne_blank {lo a : Nat} {b : Byte} {m : Memory} (hm : Memory.wfFrom lo ((a, b) :: m) = true) :
    Memory.read ((a, b) :: m) a ≠ Memory.blank := by
  rw [Memory.read_cons_same]
  exact ((Memory.wfFrom_cons ..).1 hm).2.1

/-- In a canonical buffer, what reads as other than blank stands no earlier than the first listed offset. -/
theorem Memory.head_le_of_read_ne_blank {lo a k : Nat} {b : Byte} {m : Memory}
    (hm : Memory.wfFrom lo ((a, b) :: m) = true) (hk : Memory.read ((a, b) :: m) k ≠ Memory.blank) : a ≤ k := by
  obtain ⟨-, hb, hm⟩ := (Memory.wfFrom_cons ..).1 hm
  by_contra hlt
  exact hk (Memory.read_below ((Memory.wfFrom_cons ..).2 ⟨le_rfl, hb, hm⟩) (Nat.lt_of_not_le hlt))

/-- Behind a listed cell, canonical tails read the same if the whole buffers do: at the cell's own offset both are blank. -/
theorem Memory.read_tail_eq {a : Nat} {b : Byte} {m n : Memory} (hm : Memory.wfFrom (a + 1) m = true)
    (hn : Memory.wfFrom (a + 1) n = true) (h : ∀ k, Memory.read ((a, b) :: m) k = Memory.read ((a, b) :: n) k) (k : Nat) :
    m.read k = n.read k := by
  by_cases hk : a = k
  · rw [Memory.read_below hm (by omega), Memory.read_below hn (by omega)]
  · simpa [Memory.read_cons, hk] using h k

/-- Canonical buffers that read the same list the same cells: the first listed offset is the first that is not blank. -/
theorem Memory.eq_of_read_eq {lo : Nat} {m n : Memory} (hm : Memory.wfFrom lo m = true) (hn : Memory.wfFrom lo n = true)
    (h : ∀ k, m.read k = n.read k) : m = n := by
  induction m generalizing lo n with
  | nil =>
    match n with
    | [] => rfl
    | (a, _) :: _ => exact absurd (h a).symm (Memory.read_head_ne_blank hn)
  | cons c m ih =>
    obtain ⟨a, b⟩ := c
    match n with
    | [] => exact absurd (h a) (Memory.read_head_ne_blank hm)
    | (a', b') :: n =>
      have hle : a ≤ a' := Memory.head_le_of_read_ne_blank hm (h a' ▸ Memory.read_head_ne_blank hn)
      have hge : a' ≤ a := Memory.head_le_of_read_ne_blank hn (h a ▸ Memory.read_head_ne_blank hm)
      obtain rfl : a = a' := Nat.le_antisymm hle hge
      obtain rfl : b = b' := by simpa using h a
      obtain ⟨-, -, hmt⟩ := (Memory.wfFrom_cons ..).1 hm
      obtain ⟨-, -, hnt⟩ := (Memory.wfFrom_cons ..).1 hn
      rw [ih hmt hnt (Memory.read_tail_eq hmt hnt h)]

/-- Settles O52: canonical form from offset 0. -/
theorem canonicalBuffersAreEqual : Obligations.CanonicalBuffersAreEqual :=
  fun _ _ hm hn h => Memory.eq_of_read_eq hm hn h

/-! ### The bytes a step reads -/

/-- An opcode's effect neither reads nor writes the buffer. -/
theorem applyOpcode_otherBuffer (op : Opcode) (operand : Int) (h : Byte) (s : State) (m : Memory) :
    applyOpcode op operand h { s with mem := m } = { applyOpcode op operand h s with mem := m } := by
  cases op <;> rfl

/-- Another buffer that holds the frame at the cursor, as far as it lies inside. -/
def State.FrameAgrees (s : State) (m : Memory) : Prop :=
  ∀ a, s.cur ≤ a → a < s.cur + frameLength (s.mem.read s.cur) → a < s.len → m.read a = s.mem.read a

theorem State.FrameAgrees.header {s : State} {m : Memory} (hm : s.FrameAgrees m) (hlt : s.cur < s.len) :
    m.read s.cur = s.mem.read s.cur :=
  hm s.cur le_rfl (Nat.lt_add_of_pos_right (frameLength_pos _)) hlt

/-- R93: the bytes gathered lie inside the frame and inside the buffer. -/
theorem State.FrameAgrees.gathered {s : State} {m : Memory} (hm : s.FrameAgrees m) (hlt : s.cur < s.len) :
    ({ s with mem := m } : State).gathered = s.gathered := by
  simp only [State.gathered, State.gatherCount, hm.header hlt]
  refine List.map_congr_left fun j hj => ?_
  rw [List.mem_range] at hj
  exact hm _ (by omega) (by simp only [frameLength]; omega) (by omega)

/-- Settles O29: the header and the bytes gathered decide the frame, and the frame's effect reads no buffer. -/
theorem stepReadsOnlyItsFrame : Obligations.StepReadsOnlyItsFrame := by
  intro s t m h hr hs hm
  obtain ⟨hlt, rfl⟩ := State.memRead_ok hr
  have hframe : s.FrameAgrees m := hm
  rw [step_running hlt, effect_eq_applyOpcode] at hs
  injection hs with hs
  rw [step_running (s := { s with mem := m }) hlt, effect_eq_applyOpcode, hframe.header hlt, hframe.gathered hlt,
    applyOpcode_otherBuffer, ← hs]
  rfl

end Sys2Proof.Machine
end

section
/-! SUPPORT. The encoding family (30_encoding.md): encoder and decoder are inverse, a payload extended by its sign keeps its
operand, and an assembler line means its operand. -/

namespace Sys2Proof.Machine

/-! ### Encoding and decoding -/

/-- A frame is decoded from its header and any bytes from which its declared length takes its payload. -/
theorem decode_header_cons {i : Instr} {bs rest : List Byte} (ht : bs.take i.extLen.count = i.payload)
    (hd : bs.drop i.extLen.count = rest) : decode (i.header :: bs) = .ok (i, rest) := by
  rw [decode, extraCount_header, ht, hd, (header_decodes i).1]

/-- Settles O1: a full frame's payload is exactly as long as its header declares. -/
theorem fullFrameRoundTrip : Obligations.FullFrameRoundTrip := by
  intro i rest _ hfull
  have hlen : i.payload.length = i.extLen.count := of_decide_eq_true hfull
  exact decode_header_cons (List.take_left' hlen) (List.drop_left' hlen)

/-- Settles O2: where no byte follows, the declared length takes the whole payload, however short. -/
theorem lastFrameRoundTrip : Obligations.LastFrameRoundTrip := by
  intro i hwf
  have hlen : i.payload.length ≤ i.extLen.count := of_decide_eq_true hwf
  exact decode_header_cons (List.take_of_length_le hlen) (List.drop_of_length_le hlen)

theorem encode_frameInstr {h : Byte} {ext : List Byte} (hl : ext.length ≤ extraCount h) :
    encode (frameInstr h ext) = h :: ext := by
  rw [encode, header_frameInstr, payload_frameInstr h ext hl]

theorem full_frameInstr {h : Byte} {ext : List Byte} (hl : ext.length ≤ extraCount h) :
    (frameInstr h ext).full = decide (ext.length = extraCount h) := by
  rw [Instr.full, payload_frameInstr h ext hl, extLen_frameInstr, extraCount]

/-- Settles O3: the bytes gathered are at most the declared ones, and fewer only where the bytes given are fewer. -/
theorem decodedFrameEncodesBack : Obligations.DecodedFrameEncodesBack := by
  intro bs i rest hdec
  cases bs with
  | nil => cases hdec
  | cons h bs =>
    cases hdec
    have hl : (bs.take (extraCount h)).length ≤ extraCount h := List.length_take_le ..
    refine ⟨wf_frameInstr h _ hl, ?_, fun htrunc => ?_⟩
    · rw [encode_frameInstr hl, List.cons_append, List.take_append_drop]
    · rw [full_frameInstr hl, decide_eq_false_iff_not, List.length_take] at htrunc
      exact List.drop_of_length_le (by omega)

/-- Settles O4: the decoder evaluates on each word. -/
theorem encodedWordsDecode : Obligations.EncodedWordsDecode :=
  ⟨rfl, rfl, rfl, rfl, rfl, rfl, rfl, rfl, rfl, rfl⟩

/-! ### Signed payloads -/

/-- Settles O17: 0x00 adds nothing to the packed value; 0xFF adds as much as the wider sign conversion takes away. -/
theorem signPaddedPayloadSameOperand : Obligations.SignPaddedPayloadSameOperand := by
  intro b bs
  by_cases hb : b.toNat < 128
  · have hpack : packBE (0x00#8 :: b :: bs) = packBE (b :: bs) := by simp [packBE_cons 0x00#8]
    rw [if_pos hb, payloadOperand_cons, payloadOperand_cons, if_neg (by decide), if_neg (by omega), hpack]
  · have hpack : packBE (0xFF#8 :: b :: bs) = 255 * 2 ^ (8 * (bs.length + 1)) + packBE (b :: bs) := by
      rw [packBE_cons 0xFF#8, List.length_cons, pow_eight]
      rfl
    have hpow : (2 : Int) ^ (8 * (bs.length + 1 + 1)) = 256 * 2 ^ (8 * (bs.length + 1)) := by
      rw [Nat.mul_succ, pow_add, mul_comm]
      rfl
    rw [if_neg hb, payloadOperand_cons, payloadOperand_cons, if_pos (by decide), if_pos (by omega), hpack,
      List.length_cons, hpow]
    push_cast
    ring

/-- The sign conversion recovers a number in the signed `b`-bit range from its value modulo `2^b` (R75). -/
theorem signed_emod {b : Nat} (hb : 1 ≤ b) {n : Int} (hlo : -2 ^ (b - 1) ≤ n) (hhi : n < 2 ^ (b - 1)) :
    signed (n % 2 ^ b).toNat b = n := by
  obtain ⟨c, rfl⟩ := Nat.exists_eq_add_of_le' hb
  have hpow : (2 : Int) ^ (c + 1) = 2 * 2 ^ c := by rw [pow_succ, mul_comm]
  rw [Nat.add_sub_cancel] at hlo hhi
  have hcast : ((2 ^ c : Nat) : Int) = 2 ^ c := by simp
  rw [signed, Nat.add_sub_cancel, hpow]
  rcases lt_or_ge n 0 with hneg | hpos
  · have hmod : n % (2 * 2 ^ c) = n + 2 * 2 ^ c := by
      rw [← Int.add_emod_right, Int.emod_eq_of_lt (by omega) (by omega)]
    rw [hmod, if_pos (by omega)]
    omega
  · rw [Int.emod_eq_of_lt hpos (by omega), if_neg (by omega)]
    omega

theorem moveOperand_ofInt {n : Int} (hlo : -32 ≤ n) (hhi : n ≤ 31) : moveOperand (BitVec.ofInt 6 n) = n := by
  rw [moveOperand, BitVec.toNat_ofInt]
  exact signed_emod (b := 6) (by decide) hlo (by omega)

@[simp] theorem length_bytesBE (k v : Nat) : (bytesBE k v).length = k := by
  induction k with
  | zero => rfl
  | succ k ih => rw [bytesBE, List.length_cons, ih]

theorem packBE_bytesBE (k v : Nat) : packBE (bytesBE k v) = v % 256 ^ k := by
  induction k with
  | zero => rw [Nat.pow_zero, Nat.mod_one]; rfl
  | succ k ih =>
    have hsplit : v % 256 ^ (k + 1) = v % 256 ^ k + 256 ^ k * (v / 256 ^ k % 256) := by rw [Nat.pow_succ, Nat.mod_mul]
    rw [bytesBE, packBE_cons, length_bytesBE, ih, BitVec.toNat_ofNat, hsplit, Nat.mul_comm, Nat.add_comm]

theorem packBE_bytesBE_of_lt {k v : Nat} (hv : v < 256 ^ k) : packBE (bytesBE k v) = v := by
  rw [packBE_bytesBE, Nat.mod_eq_of_lt hv]

@[simp] theorem length_payloadOf (k : Nat) (n : Int) : (payloadOf k n).length = k := length_bytesBE ..

/-- R55: the assembler's range of a payload of `k` bytes is the signed range of its width. -/
theorem fitsPayload_iff (k : Nat) (n : Int) :
    fitsPayload k n = true ↔ (k = 0 → n = 0) ∧ (0 < k → -2 ^ (8 * k - 1) ≤ n ∧ n < 2 ^ (8 * k - 1)) := by
  cases k with
  | zero => simp [fitsPayload]
  | succ k =>
    have hpow : ((128 * 256 ^ k : Nat) : Int) = 2 ^ (8 * (k + 1) - 1) := by
      rw [show 8 * (k + 1) - 1 = 8 * k + 7 by omega, ← pow_eight]
      push_cast
      ring
    rw [fitsPayload, hpow]
    simp

/-- The bytes of a signed value pack to the value modulo the payload's width. -/
theorem packBE_payloadOf (k : Nat) (n : Int) : packBE (payloadOf k n) = (n % 2 ^ (8 * k)).toNat := by
  have hpow : ((256 ^ k : Nat) : Int) = 2 ^ (8 * k) := by rw [← pow_eight]; push_cast; rfl
  have hpos : (0 : Int) < 2 ^ (8 * k) := by positivity
  have hlt := Int.emod_lt_of_pos n hpos
  rw [payloadOf, hpow]
  exact packBE_bytesBE_of_lt (by omega)

theorem payloadOperand_eq_signed (ext : List Byte) : payloadOperand ext = signed (packBE ext) (8 * ext.length) := by
  cases ext <;> rfl

/-- A signed payload in range has the operand it was made from. -/
theorem payloadOperand_payloadOf {k : Nat} {n : Int} (h : fitsPayload k n = true) : payloadOperand (payloadOf k n) = n := by
  obtain ⟨hzero, hrange⟩ := (fitsPayload_iff k n).1 h
  rcases Nat.eq_zero_or_pos k with rfl | hk
  · exact (hzero rfl).symm
  · obtain ⟨hlo, hhi⟩ := hrange hk
    rw [payloadOperand_eq_signed, packBE_payloadOf, length_payloadOf]
    exact signed_emod (by omega) hlo hhi

/-! ### The headers that the assembler writes -/

theorem frameLength_extHeader (e : ExtLen) (xop : BitVec 4) : frameLength (extHeader e xop) = 1 + e.count := by
  obtain ⟨-, -, hlen⟩ := extHeader_fields e xop
  rw [frameLength, extraCount, hlen]

theorem decOperand_extHeader (e : ExtLen) (xop : BitVec 4) (ext : List Byte) :
    decOperand (extHeader e xop) ext = payloadOperand ext := by
  obtain ⟨hsel, -, -⟩ := extHeader_fields e xop
  simp only [decOperand, hsel]

theorem extHeader_toNat_mod (e : ExtLen) (xop : BitVec 4) : (extHeader e xop).toNat % 16 = xop.toNat := by
  cases e <;> revert xop <;> decide

theorem classify_extHeader_col (e : ExtLen) : classify (extHeader e 6#4) = .col := by
  cases e <;> rfl

theorem classify_extHeader_reserved (e : ExtLen) {xop : BitVec 4} (hx : xop.toNat ∉ [3, 4, 5, 6]) :
    classify (extHeader e xop) = .invalid := by
  cases e <;> revert xop <;> decide

theorem reservedXop_iff (x : Nat) : reservedXop x = true ↔ x < 16 ∧ x ∉ [3, 4, 5, 6] := by
  simp only [reservedXop, Bool.and_eq_true, decide_eq_true_eq, List.mem_cons, List.not_mem_nil, or_false]
  omega

/-- The compact headers carry their opcode and operand (R50, R76). -/
theorem compact_header_means (imm : Imm6) :
    (classify (Instr.dx imm).header = .dx ∧ decOperand (Instr.dx imm).header [] = moveOperand imm) ∧
    (classify (Instr.dy imm).header = .dy ∧ decOperand (Instr.dy imm).header [] = moveOperand imm) ∧
    (classify (Instr.dt imm).header = .dt ∧ decOperand (Instr.dt imm).header [] = pauseOperand imm) := by
  revert imm
  decide

/-! ### Assembler lines and programs -/

theorem assemble_cons (l : AsmLine) (ls : List AsmLine) :
    assemble (l :: ls) = (assembleLine l).bind fun bs => (assemble ls).map (bs ++ ·) := by
  rw [assemble]
  cases assembleLine l <;> cases assemble ls <;> rfl

theorem assemble_append {ls ms : List AsmLine} {bs cs : List Byte} (hls : assemble ls = some bs)
    (hms : assemble ms = some cs) : assemble (ls ++ ms) = some (bs ++ cs) := by
  induction ls generalizing bs with
  | nil => cases hls; exact hms
  | cons l ls ih =>
    rw [assemble_cons, Option.bind_eq_some_iff] at hls
    obtain ⟨as, hl, hls⟩ := hls
    obtain ⟨rest, hrest, rfl⟩ := Option.map_eq_some_iff.1 hls
    rw [List.cons_append, assemble_cons, hl, ih hrest, List.append_assoc]
    rfl

theorem assemble_singleton (l : AsmLine) : assemble [l] = assembleLine l := by
  rw [assemble_cons]
  cases assembleLine l <;> simp [assemble]

theorem assemble_eq_none_iff (ls : List AsmLine) : assemble ls = none ↔ ∃ l ∈ ls, assembleLine l = none := by
  induction ls with
  | nil => simp [assemble]
  | cons l ls ih =>
    rw [assemble_cons, List.exists_mem_cons_iff, ← ih]
    cases assembleLine l <;> simp

/-- Settles O5: each line's range test, then the meaning of the frame it writes; programs by induction on their lines. -/
theorem assembledLineMeansItsOperand : Obligations.AssembledLineMeansItsOperand := by
  refine ⟨fun n => ?_, fun n => ?_, fun e n => ?_, fun e v => ?_, fun e x v => ?_, fun v => rfl,
    fun _ _ _ _ => assemble_append, assemble_singleton, assemble_eq_none_iff⟩
  · split
    next hn =>
      obtain ⟨⟨hdx, odx⟩, ⟨hdy, ody⟩, -⟩ := compact_header_means (BitVec.ofInt 6 n)
      have hmove := moveOperand_ofInt hn.1 hn.2
      exact ⟨_, _, if_pos hn, hdx, frameLength_header _, odx.trans hmove,
        if_pos hn, hdy, frameLength_header _, ody.trans hmove⟩
    next hn => exact ⟨if_neg hn, if_neg hn⟩
  · split
    next hn =>
      obtain ⟨-, -, hdt, odt⟩ := compact_header_means (BitVec.ofNat 6 n)
      have hpause : pauseOperand (BitVec.ofNat 6 n) = n := Nat.mod_eq_of_lt (Nat.lt_succ_of_le hn)
      exact ⟨_, if_pos hn, hdt, frameLength_header _, by rw [odt, hpause]⟩
    next hn => exact if_neg hn
  · simp only [← fitsPayload_iff]
    split
    next hn =>
      exact ⟨_, _, if_pos hn, classify_extHeader_col e, length_payloadOf .., frameLength_extHeader e _,
        (decOperand_extHeader ..).trans (payloadOperand_payloadOf hn)⟩
    next hn => exact if_neg hn
  · rw [pow_eight]
    split
    next hv =>
      exact ⟨bytesBE e.count v, length_bytesBE .., packBE_bytesBE_of_lt hv, if_pos hv, if_pos hv, if_pos hv⟩
    next hv => exact ⟨if_neg hv, if_neg hv, if_neg hv⟩
  · have hline : reservedXop x = true ∧ v < 256 ^ e.count ↔ x < 16 ∧ x ∉ [3, 4, 5, 6] ∧ v < 256 ^ e.count := by
      rw [reservedXop_iff, and_assoc]
    rw [pow_eight]
    split
    next h =>
      obtain ⟨hx, hres, hv⟩ := h
      have hxop : (BitVec.ofNat 4 x).toNat = x := Nat.mod_eq_of_lt hx
      exact ⟨_, _, if_pos (hline.2 ⟨hx, hres, hv⟩), classify_extHeader_reserved e (by rwa [hxop]),
        (extHeader_toNat_mod ..).trans hxop, length_bytesBE .., frameLength_extHeader .., packBE_bytesBE_of_lt hv⟩
    next h => exact if_neg (mt hline.1 h)

end Sys2Proof.Machine
end

section
/-! SUPPORT. The decoder family (40_decoder.md): sign conversion as two's complement, a header's fields as numbers, and DEC's
classifier, unpacker and buses. -/

namespace Sys2Proof.Machine

/-! ### Sign conversion -/

/-- R75's rule is the reading of a bit vector as two's complement, so what the library proves of the reading holds of the rule. -/
theorem signed_toNat {b : Nat} (x : BitVec b) : signed x.toNat b = x.toInt := by
  rw [BitVec.toInt_eq_toNat_cond, signed]
  cases b with
  | zero => simp [BitVec.of_length_zero]
  | succ c =>
    rw [Nat.add_sub_cancel, Nat.pow_succ]
    by_cases h : 2 ^ c ≤ x.toNat
    · rw [if_pos h, if_neg (by omega), pow_succ]
      push_cast
      rfl
    · rw [if_neg h, if_pos (by omega)]

theorem signed_eq_toInt {b v : Nat} (hv : v < 2 ^ b) : signed v b = (BitVec.ofNat b v).toInt := by
  rw [← signed_toNat, BitVec.toNat_ofNat, Nat.mod_eq_of_lt hv]

theorem le_signed {b v : Nat} (hv : v < 2 ^ b) : -2 ^ (b - 1) ≤ signed v b :=
  signed_eq_toInt hv ▸ BitVec.le_toInt _

theorem signed_lt {b v : Nat} (hv : v < 2 ^ b) : signed v b < 2 ^ (b - 1) :=
  signed_eq_toInt hv ▸ BitVec.toInt_lt

/-- Section 5, law 3: sign conversion changes a field by 0 or by `2^b`. -/
theorem signed_emod_pow {b v : Nat} (hv : v < 2 ^ b) : signed v b % 2 ^ b = v := by
  have hv' : (v : Int) < 2 ^ b := by exact_mod_cast hv
  rw [signed]
  split
  · rw [Int.sub_emod_right, Int.emod_eq_of_lt (Int.natCast_nonneg v) hv']
  · exact Int.emod_eq_of_lt (Int.natCast_nonneg v) hv'

theorem signed_eq_ite_lt (v b : Nat) : signed v b = if v < 2 ^ (b - 1) then (v : Int) else (v : Int) - 2 ^ b := by
  simp only [signed, ← not_lt, ite_not]

/-- Settles O9: the cases are the definition's, the range is two's complement's. -/
theorem signConversionOfField : Obligations.SignConversionOfField := by
  intro b v _ hv
  exact ⟨fun h => if_pos h, fun h => if_neg (Nat.not_le_of_lt h), le_signed hv, signed_lt hv⟩

/-- Settles O10: sign extension is the wider pattern of the two's-complement reading. -/
theorem signConversionIsSignExtension : Obligations.SignConversionIsSignExtension := by
  intro b n v _ _ hv
  refine ⟨?_, signed_emod_pow hv⟩
  rw [signed_eq_toInt hv, BitVec.signExtend]

/-! ### The fields of a header -/

theorem hdrSel_toNat (h : Byte) : (hdrSel h).toNat = h.toNat / 64 := by
  have := h.isLt
  rw [hdrSel, BitVec.extractLsb'_toNat, Nat.shiftRight_eq_div_pow]
  omega

theorem hdrLen_toNat (h : Byte) : (hdrLen h).toNat = h.toNat / 16 % 4 := by
  rw [hdrLen, BitVec.extractLsb'_toNat, Nat.shiftRight_eq_div_pow]

theorem hdrXop_toNat (h : Byte) : (hdrXop h).toNat = h.toNat % 16 := by
  rw [hdrXop, BitVec.extractLsb'_toNat, Nat.shiftRight_zero]

theorem hdrImm_toNat (h : Byte) : (hdrImm h).toNat = h.toNat % 64 := by
  rw [hdrImm, BitVec.extractLsb'_toNat, Nat.shiftRight_zero]

/-- Section 5, law 2: a header at or above 0xC0 is extended. -/
theorem hdrSel_of_extended {h : Byte} (hh : 192 ≤ h.toNat) : (hdrSel h).toNat = 3 := by
  have := h.isLt
  rw [hdrSel_toNat]
  omega

/-! ### The classifier -/

/-- Settles O6: R71's table, in the header's fields as numbers. -/
theorem classifierFollowsHeaderBits : Obligations.ClassifierFollowsHeaderBits := by
  intro h
  rw [classify, hdrSel_toNat, hdrXop_toNat]
  split
  next e => rw [if_pos e]
  next e => simp [e]
  next e => simp [e]
  next e0 e1 e2 =>
    rw [if_neg e0, if_neg e1, if_neg e2]
    split
    next e => rw [if_pos e]
    next e => simp [e]
    next e => simp [e]
    next e => simp [e]
    next e3 e4 e5 e6 => rw [if_neg e3, if_neg e4, if_neg e5, if_neg e6]

theorem count_extLenOfSel (l : BitVec 2) : (extLenOfSel l).count = if l.toNat = 3 then 4 else l.toNat := by
  revert l
  decide

theorem extraCount_of_compact {h : Byte} (hs : (hdrSel h).toNat ≠ 3) : extraCount h = 0 := by
  rw [extraCount, declaredLen]
  split
  next e => exact absurd e hs
  next => rfl

theorem extraCount_of_extended {h : Byte} (hs : (hdrSel h).toNat = 3) :
    extraCount h = if (hdrLen h).toNat = 3 then 4 else (hdrLen h).toNat := by
  simp only [extraCount, declaredLen, hs, count_extLenOfSel]

theorem extraCount_ne_three (h : Byte) : extraCount h ≠ 3 := by
  rw [extraCount]
  cases declaredLen h <;> decide

/-- Settles O7: a compact header declares nothing, an extended one what its bits 5-4 select. -/
theorem frameLengthFollowsSelector : Obligations.FrameLengthFollowsSelector := by
  intro h
  refine ⟨?_, rfl, extraCount_ne_three h⟩
  by_cases hs : (hdrSel h).toNat = 3
  · rw [extraCount_of_extended hs, hdrLen_toNat, ← hdrSel_toNat, if_neg (not_not.2 hs)]
  · rw [extraCount_of_compact hs, ← hdrSel_toNat, if_pos hs]

theorem extraCount_eq_of_upper {g h : Byte} (hgh : g.toNat / 16 = h.toNat / 16) : extraCount g = extraCount h := by
  obtain ⟨hg, -, -⟩ := frameLengthFollowsSelector g
  obtain ⟨hh, -, -⟩ := frameLengthFollowsSelector h
  rw [hg, hh, show g.toNat / 64 = h.toNat / 64 by omega, hgh]

theorem classify_of_extended {h : Byte} (hs : (hdrSel h).toNat = 3) :
    classify h =
      if h.toNat % 16 = 3 then .pen else if h.toNat % 16 = 4 then .clear else if h.toNat % 16 = 5 then .key
      else if h.toNat % 16 = 6 then .col else .invalid := by
  rw [hdrSel_toNat] at hs
  rw [classifierFollowsHeaderBits h, if_neg (by omega), if_neg (by omega), if_neg (by omega)]

/-- Settles O8: the length is a function of bits 7-4, and with `s = 3` the opcode is one of bits 3-0. -/
theorem lengthAndOpcodeBitsAreIndependent : Obligations.LengthAndOpcodeBitsAreIndependent := by
  intro g h hg hh
  have cg := classify_of_extended (hdrSel_of_extended hg)
  have ch := classify_of_extended (hdrSel_of_extended hh)
  refine ⟨fun hu => ?_, fun hl => ?_, ?_⟩
  · rw [frameLength, frameLength, extraCount_eq_of_upper hu]
  · rw [cg, ch, hl]
  · rw [cg]
    split_ifs <;> decide

/-! ### The unpacker -/

/-- A six-bit operand is its field, less 64 when its bit 5 is set (R76). -/
theorem moveOperand_eq (imm : Imm6) :
    moveOperand imm = if imm.toNat < 32 then (imm.toNat : Int) else (imm.toNat : Int) - 64 :=
  signed_eq_ite_lt imm.toNat 6

theorem decOperand_of_move {h : Byte} (hs : (hdrSel h).toNat < 2) (ext : List Byte) :
    decOperand h ext = moveOperand (hdrImm h) := by
  obtain e | e : (hdrSel h).toNat = 0 ∨ (hdrSel h).toNat = 1 := by omega
  all_goals simp only [decOperand, e]

theorem decOperand_of_pause {h : Byte} (hs : (hdrSel h).toNat = 2) (ext : List Byte) :
    decOperand h ext = (hdrImm h).toNat :=
  decOperand_of_dt (by simp only [classify, hs]) ext

theorem decOperand_of_extended {h : Byte} (hs : (hdrSel h).toNat = 3) (ext : List Byte) :
    decOperand h ext = payloadOperand ext := by
  simp only [decOperand, hs]

/-- Settles O11: the headers below 0x80 are the moves, those from there to 0xBF the pauses. -/
theorem compactOperand : Obligations.CompactOperand := by
  intro h ext
  refine ⟨fun hlt => ?_, fun hge hlt => ?_⟩
  · have hs : (hdrSel h).toNat < 2 := by rw [hdrSel_toNat]; omega
    rw [decOperand_of_move hs, moveOperand_eq, hdrImm_toNat]
    push_cast
    rfl
  · have hs : (hdrSel h).toNat = 2 := by rw [hdrSel_toNat]; omega
    rw [decOperand_of_pause hs, hdrImm_toNat]
    push_cast
    rfl

/-- R77, and R79 with `k = 0` (D5): no byte gathered, whatever the header declares. -/
theorem decOperand_extended_nil {h : Byte} (hh : 192 ≤ h.toNat) : decOperand h [] = 0 :=
  decOperand_of_extended (hdrSel_of_extended hh) []

/-- Settles O12: an extended header with no byte gathered. -/
theorem extendedOperandWithoutExtension : Obligations.ExtendedOperandWithoutExtension :=
  fun _ hh _ => decOperand_extended_nil hh

/-- Settles O13: an extended header with no byte gathered. -/
theorem truncatedToHeaderOperandIsZero : Obligations.TruncatedToHeaderOperandIsZero :=
  fun _ hh _ => decOperand_extended_nil hh

/-- Settles O38: `COL` emits the operand of the bytes gathered, and that of none is 0. -/
theorem colTruncatedToHeaderEmitsZero : Obligations.ColTruncatedToHeaderEmitsZero :=
  fun _ _ => rfl

theorem packBE_lt_two_pow (ext : List Byte) : packBE ext < 2 ^ (8 * ext.length) :=
  pow_eight _ ▸ packBE_lt ext

/-- R78: a payload's operand is negative just when bit 7 of its first byte is set. -/
theorem payloadOperand_neg_iff (b : Byte) (bs : List Byte) : payloadOperand (b :: bs) < 0 ↔ 128 ≤ b.toNat := by
  have hlt : (packBE (b :: bs) : Int) < 2 ^ (8 * (bs.length + 1)) := by exact_mod_cast packBE_lt_two_pow (b :: bs)
  rw [payloadOperand_cons]
  split <;> omega

/-- Settles O14: the payload's operand is the sign conversion of what the bytes pack to, at their own width. -/
theorem fullPayloadOperand : Obligations.FullPayloadOperand := by
  intro h b bs hh _
  have hlt : packBE (b :: bs) < 2 ^ (8 * (bs.length + 1)) := packBE_lt_two_pow (b :: bs)
  rw [decOperand_of_extended (hdrSel_of_extended hh)]
  exact ⟨signed_eq_ite_lt .., le_signed hlt, signed_lt hlt, payloadOperand_neg_iff b bs⟩

/-- Settles O15: the width is that of the bytes gathered, so the declared count has no part in it. -/
theorem truncatedPayloadOperand : Obligations.TruncatedPayloadOperand := by
  intro h b bs hh _
  rw [decOperand_of_extended (hdrSel_of_extended hh), payloadOperand_cons]
  simp only [← not_lt, ite_not]
  rfl

/-- Big-endian packing loses no byte: below the first byte's weight lies the value of the bytes after it. -/
theorem packBE_injective {as bs : List Byte} (hl : as.length = bs.length) (hp : packBE as = packBE bs) : as = bs := by
  induction as generalizing bs with
  | nil => exact (List.eq_nil_of_length_eq_zero hl.symm).symm
  | cons a as ih =>
    match bs with
    | b :: bs =>
      have hl : as.length = bs.length := Nat.succ.inj hl
      have hpos : 0 < 256 ^ bs.length := by positivity
      have ha : packBE as < 256 ^ bs.length := hl ▸ packBE_lt as
      rw [packBE_cons, packBE_cons, hl, Nat.mul_comm, Nat.mul_comm b.toNat] at hp
      have hdiv := congrArg (· / 256 ^ bs.length) hp
      have hmod := congrArg (· % 256 ^ bs.length) hp
      simp only [Nat.mul_add_div hpos, Nat.div_eq_of_lt ha, Nat.div_eq_of_lt (packBE_lt bs), Nat.add_zero] at hdiv
      simp only [Nat.mul_add_mod, Nat.mod_eq_of_lt ha, Nat.mod_eq_of_lt (packBE_lt bs)] at hmod
      rw [BitVec.eq_of_toNat_eq hdiv, ih hl hmod]

/-- Section 5, law 6: the packed bytes are the operand's low bits. -/
theorem payloadOperand_emod (ext : List Byte) : payloadOperand ext % 2 ^ (8 * ext.length) = packBE ext := by
  rw [payloadOperand_eq_signed, signed_emod_pow (packBE_lt_two_pow ext)]

/-- Settles O16: the operand gives the packed value and that, at a given length, the bytes. -/
theorem payloadRecoveredFromOperand : Obligations.PayloadRecoveredFromOperand := by
  intro a b hl ho
  have hp : (packBE a : Int) = packBE b := by rw [← payloadOperand_emod, ← payloadOperand_emod, hl, ho]
  exact packBE_injective hl (Int.ofNat_inj.1 hp)

/-! ### The buses -/

theorem packBE_append_toNat {n : Nat} {x : BitVec n} {ext : List Byte} (hx : packBE ext = x.toNat) (b : Byte) :
    packBE (ext ++ [b]) = (x ++ b).toNat := by
  rw [packBE, List.foldl_append, ← packBE, hx, BitVec.toNat_append, ← Nat.shiftLeft_add_eq_or_of_lt b.isLt, Nat.shiftLeft_eq]
  rfl

/-- R80: a bus on which the bytes stand joined, read as two's complement, is their operand. -/
theorem payloadOperand_eq_toInt {n : Nat} {x : BitVec n} {ext : List Byte} (hn : 8 * ext.length = n)
    (hx : packBE ext = x.toNat) : payloadOperand ext = x.toInt := by
  rw [payloadOperand_eq_signed, hn, hx, signed_toNat]

theorem toInt_signExtend_payload {n : Nat} {x : BitVec n} {ext : List Byte} (hn : 8 * ext.length = n) (hle : n ≤ 32)
    (hx : packBE ext = x.toNat) : (x.signExtend 32).toInt = payloadOperand ext := by
  rw [BitVec.toInt_signExtend_of_le hle, payloadOperand_eq_toInt hn hx]

theorem moveOperand_eq_toInt (imm : Imm6) : moveOperand imm = imm.toInt := signed_toNat imm

/-- The unpacker's three forms of header (R80): the moves, the pause and the extended ones. -/
theorem hdrSel_cases (h : Byte) : (hdrSel h).toNat < 2 ∨ (hdrSel h).toNat = 2 ∨ (hdrSel h).toNat = 3 := by
  have := (hdrSel h).isLt
  omega

theorem toInt_range {n : Nat} (hn : n ≤ 32) (x : BitVec n) : -2 ^ 31 ≤ x.toInt ∧ x.toInt < 2 ^ 31 := by
  rw [← BitVec.toInt_signExtend_of_le hn]
  exact ⟨BitVec.le_toInt _, BitVec.toInt_lt⟩

/-- Settles O18: each form of operand is a field or a payload of at most 32 bits. -/
theorem operandFitsBus : Obligations.OperandFitsBus := by
  intro h ext hl
  obtain hs | hs | hs := hdrSel_cases h
  · rw [decOperand_of_move hs, moveOperand_eq_toInt]
    exact toInt_range (by decide) _
  · have := (hdrImm h).isLt
    rw [decOperand_of_pause hs]
    omega
  · rw [decOperand_of_extended hs, payloadOperand_eq_signed, signed_eq_toInt (packBE_lt_two_pow ext)]
    exact toInt_range (by omega) _

theorem operandBus_of_move {h : Byte} (hs : (hdrSel h).toNat < 2) (k : Fin 5) (b1 b2 b3 b4 : Byte) :
    operandBus h k b1 b2 b3 b4 = (hdrImm h).signExtend 32 := by
  obtain e | e : (hdrSel h).toNat = 0 ∨ (hdrSel h).toNat = 1 := by omega
  all_goals simp only [operandBus, e]

theorem operandBus_of_pause {h : Byte} (hs : (hdrSel h).toNat = 2) (k : Fin 5) (b1 b2 b3 b4 : Byte) :
    operandBus h k b1 b2 b3 b4 = (hdrImm h).zeroExtend 32 := by
  simp only [operandBus, hs]

/-- A six-bit field zero-extended to the bus reads as its unsigned value. -/
theorem toInt_zeroExtend_imm (imm : Imm6) : (imm.zeroExtend 32).toInt = imm.toNat := by
  have hn : (imm.zeroExtend 32).toNat = imm.toNat := BitVec.toNat_setWidth_of_le (by decide)
  have := imm.isLt
  rw [BitVec.toInt_eq_toNat_of_lt (by omega), hn]

/-- The extended form of the bus, byte count by byte count. -/
theorem operandBus_of_extended {h : Byte} (hs : (hdrSel h).toNat = 3) (k : Fin 5) (b1 b2 b3 b4 : Byte) :
    (operandBus h k b1 b2 b3 b4).toInt = payloadOperand ([b1, b2, b3, b4].take k.val) := by
  have p1 : packBE [b1] = b1.toNat := by simp [packBE]
  have p2 := packBE_append_toNat p1 b2
  have p3 := packBE_append_toNat p2 b3
  have p4 := packBE_append_toNat p3 b4
  match k with
  | 0 => simp only [operandBus, hs]; rfl
  | 1 => simp only [operandBus, hs]; exact toInt_signExtend_payload rfl (by decide) p1
  | 2 => simp only [operandBus, hs]; exact toInt_signExtend_payload rfl (by decide) p2
  | 3 => simp only [operandBus, hs]; exact toInt_signExtend_payload rfl (by decide) p3
  | 4 => simp only [operandBus, hs]; exact (payloadOperand_eq_toInt rfl p4).symm

/-- The operand bus read as two's complement is the operand of the bytes gathered (R80). -/
theorem toInt_operandBus (h : Byte) (k : Fin 5) (b1 b2 b3 b4 : Byte) :
    (operandBus h k b1 b2 b3 b4).toInt = decOperand h ([b1, b2, b3, b4].take k.val) := by
  obtain hs | hs | hs := hdrSel_cases h
  · rw [operandBus_of_move hs, decOperand_of_move hs, moveOperand_eq_toInt, BitVec.toInt_signExtend_of_le (by decide)]
  · rw [operandBus_of_pause hs, decOperand_of_pause hs, toInt_zeroExtend_imm]
  · rw [operandBus_of_extended hs, decOperand_of_extended hs]

/-- R81: a compact header's code is its selector. -/
theorem opcodeCode_of_compact {h : Byte} (hh : h.toNat < 192) : (opcodeCode (classify h)).toNat = h.toNat / 64 := by
  obtain e | e | e : h.toNat / 64 = 0 ∨ h.toNat / 64 = 1 ∨ h.toNat / 64 = 2 := by omega
  all_goals rw [classifierFollowsHeaderBits h, e]; rfl

/-- R81: a valid extended header's code is its `xop`; a reserved one's is 7. -/
theorem opcodeCode_of_extended {h : Byte} (hh : 192 ≤ h.toNat) :
    (opcodeCode (classify h)).toNat = if 3 ≤ h.toNat % 16 ∧ h.toNat % 16 ≤ 6 then h.toNat % 16 else 7 := by
  rw [classify_of_extended (hdrSel_of_extended hh)]
  by_cases hx : 3 ≤ h.toNat % 16 ∧ h.toNat % 16 ≤ 6
  · obtain e | e | e | e : h.toNat % 16 = 3 ∨ h.toNat % 16 = 4 ∨ h.toNat % 16 = 5 ∨ h.toNat % 16 = 6 := by omega
    all_goals rw [e]; rfl
  · rw [if_neg hx, if_neg (by omega), if_neg (by omega), if_neg (by omega), if_neg (by omega)]
    rfl

/-- Settles O19: the operand bus, the counts on three bits, and R81's code on each side of 0xC0. -/
theorem decPortsCarryTriple : Obligations.DecPortsCarryTriple := by
  intro h k b1 b2 b3 b4
  have hE := extraCount_le h
  have hF := frameLength_le h
  exact ⟨toInt_operandBus .., Nat.mod_eq_of_lt (by omega), Nat.mod_eq_of_lt (by omega), opcodeCode_of_compact,
    opcodeCode_of_extended⟩

end Sys2Proof.Machine
end

section
/-! SUPPORT. The sequencer family (41_sequencer.md): the fetch, the step as the spec's pseudocode, frame boundaries, the events
of a step, the invariant, and runs of the hardware form. -/

namespace Sys2Proof.Machine

/-! ### Fetch and step -/

@[simp] theorem State.length_gathered (s : State) : s.gathered.length = s.gatherCount (s.mem.read s.cur) := by
  simp [State.gathered]

theorem State.length_gathered_le (s : State) : s.gathered.length ≤ extraCount (s.mem.read s.cur) := by
  rw [State.length_gathered]
  exact Nat.min_le_left ..

/-- The byte gathered at a place is the buffer's at that distance behind the header (R93). -/
theorem State.getElem_gathered (s : State) {j : Nat} (hj : j < s.gathered.length) :
    s.gathered[j] = s.mem.read (s.cur + (j + 1)) := by
  simp [State.gathered, Nat.add_assoc, Nat.add_comm 1]

/-- Settles O20: the bytes gathered are no more than those that remain, so each is a read inside the buffer. -/
theorem fetchGathersBytesPresent : Obligations.FetchGathersBytesPresent := by
  intro s hc
  refine ⟨_, _, State.fetchFrame_running hc, State.memRead_inside hc, s.length_gathered, fun j hj => ?_⟩
  have hin : s.gathered.length ≤ s.len - s.cur - 1 := s.length_gathered ▸ Nat.min_le_right ..
  rw [State.memRead_inside (by omega), s.getElem_gathered hj]

/-- Settles O25: the status compares `CUR` with `LEN`, and no frame is fetched in `DONE`. -/
theorem doneStaysDone : Obligations.DoneStaysDone :=
  fun s h => ⟨(status_done_iff s).2 h, step_done h⟩

/-- A running machine's step has the effect that R95 gives its header's opcode with DEC's operand, then the advance. -/
theorem step_of_header {s : State} {h : Byte} (hr : s.memRead s.cur = .ok h) :
    step s = .next ((applyOpcode (classify h) (decOperand h s.gathered) h s).advance (frameLength h)) := by
  obtain ⟨hlt, rfl⟩ := State.memRead_ok hr
  rw [step_running hlt, effect_eq_applyOpcode]

theorem applyOpcode_cur (op : Opcode) (operand : Int) (h : Byte) (s : State) : (applyOpcode op operand h s).cur = s.cur := by
  cases op <;> rfl

/-- Settles O24: the bytes gathered are those the pseudocode lists, and the opcode's effect leaves the cursor to the advance. -/
theorem stepIsPseudocode : Obligations.StepIsPseudocode := by
  intro s
  rw [pseudocodeStep]
  split
  next hdone => exact step_done hdone
  next hrun =>
    have hg : s.gathered = (List.range (min (extraCount (s.mem.read s.cur)) (s.len - s.cur - 1))).map
        fun j => s.mem.read (s.cur + (j + 1)) := by
      simp only [State.gathered, State.gatherCount, Nat.add_assoc, Nat.add_comm 1]
    rw [step_of_header (State.memRead_inside (Nat.lt_of_not_le hrun)), State.advance, applyOpcode_cur, hg]

theorem remaining_of_done {s : State} (h : s.len ≤ s.cur) : s.remaining = [] := by
  simp [State.remaining, Nat.sub_eq_zero_of_le h]

/-- Settles O22: the decoder takes from the remaining bytes what the fetch gathers, and with no byte left it answers no frame. -/
theorem stepRunsDecodedFrame : Obligations.StepRunsDecodedFrame := by
  intro s i rest hdec
  by_cases hc : s.cur < s.len
  · have htake := gathered_eq_take hc
    rw [remaining_cons hc] at hdec htake
    cases hdec
    rw [List.tail_cons] at htake
    rw [← htake, header_frameInstr, ← frameLength_header, header_frameInstr]
    refine ⟨wf_frameInstr _ _ s.length_gathered_le, State.memRead_inside hc, _, exec_next .., ?_⟩
    rw [step_running hc, State.advance, (effect_frame _ s).1]
  · rw [remaining_of_done (Nat.le_of_not_lt hc)] at hdec
    cases hdec

/-! ### Frame boundaries -/

/-- Settles O27: the advance is the declared length, at least 1 and at most 5. -/
theorem cursorAdvancesByDeclaredLength : Obligations.CursorAdvancesByDeclaredLength := by
  intro s h hr
  obtain ⟨t, hs⟩ := step_total s
  obtain ⟨hlt, rfl⟩ := State.memRead_ok hr
  have hcur : t.cur = s.cur + (1 + extraCount (s.mem.read s.cur)) := step_running_cur hlt hs
  have hE := extraCount_le (s.mem.read s.cur)
  exact ⟨t, hs, hcur, by omega, by omega⟩

/-- R97: every step of a running machine passes a byte, so as many steps as bytes remain end the run. -/
theorem run_reaches_done {n : Nat} {s : State} (hn : s.len ≤ s.cur + n) :
    ∃ t, core.run n s = .next t ∧ t.status = .done := by
  induction n generalizing s with
  | zero => exact ⟨s, rfl, (status_done_iff s).2 hn⟩
  | succ n ih =>
    obtain ⟨t, hs⟩ := step_total s
    obtain ⟨hle, -, hlt⟩ := step_cur hs
    obtain ⟨-, hlen⟩ := step_sameBuffer hs
    rw [run_succ hs]
    exact ih (by omega)

/-- No step passes more than five bytes. -/
theorem len_le_of_run_done {n : Nat} {s t : State} (hr : core.run n s = .next t) (hd : t.status = .done) :
    s.len ≤ s.cur + 5 * n := by
  induction n generalizing s with
  | zero => cases hr; exact (status_done_iff _).1 hd
  | succ n ih =>
    obtain ⟨u, hs⟩ := step_total s
    obtain ⟨-, hle, -⟩ := step_cur hs
    obtain ⟨-, hlen⟩ := step_sameBuffer hs
    have := ih (run_succ hs ▸ hr)
    omega

/-- Settles O28: a running step passes one byte at least and five at most. -/
theorem runReachesDone : Obligations.RunReachesDone :=
  fun _ => ⟨run_reaches_done (by omega), fun _ _ => len_le_of_run_done⟩

/-- R98: the next frame boundary is a function of cursor and buffer. -/
theorem step_cur_eq {s s' t t' : State} (hcur : s.cur = s'.cur) (hlen : s.len = s'.len) (hmem : s.mem = s'.mem)
    (hs : step s = .next t) (hs' : step s' = .next t') : t.cur = t'.cur := by
  by_cases hc : s.cur < s.len
  · rw [step_running_cur hc hs, step_running_cur (hcur ▸ hlen ▸ hc) hs', hcur, hmem]
  · rw [step_done (by omega)] at hs hs'
    cases hs
    cases hs'
    exact hcur

/-- Settles O30, by induction on the steps: both runs keep the buffer and reach the same next boundary. -/
theorem frameBoundariesDependOnBufferAlone : Obligations.FrameBoundariesDependOnBufferAlone := by
  intro n
  induction n with
  | zero =>
    intro s s' t t' hcur _ _ hr hr'
    cases hr
    cases hr'
    exact hcur
  | succ n ih =>
    intro s s' t t' hcur hlen hmem hr hr'
    obtain ⟨u, hs⟩ := step_total s
    obtain ⟨u', hs'⟩ := step_total s'
    obtain ⟨hum, hul⟩ := step_sameBuffer hs
    obtain ⟨hum', hul'⟩ := step_sameBuffer hs'
    exact ih u u' t t' (step_cur_eq hcur hlen hmem hs hs') (by rw [hul, hul', hlen]) (by rw [hum, hum', hmem])
      (run_succ hs ▸ hr) (run_succ hs' ▸ hr')

/-! ### The events of a step -/

/-- The command that an opcode sends with DEC's operand (the table "Effects at a glance" of 43_extended_ops.md). -/
def opcodeCommand (op : Opcode) (operand : Int) (s : State) : Option Command :=
  match op with
  | .dy => if s.pen then some (.line s.px s.py s.x (addPos s.y operand)) else none
  | .dt => some (.pause (operand * 10).toNat)
  | .clear => some .clear
  | .key => some .key
  | .col => some (.colour operand)
  | .dx | .pen | .invalid => none

/-- The report that an opcode makes with a header (R130). -/
def opcodeReport (op : Opcode) (h : Byte) (s : State) : Option Report :=
  if op = .invalid then some (.invalidInstruction s.cur h) else none

theorem applyOpcode_commands (op : Opcode) (operand : Int) (h : Byte) (s : State) :
    (applyOpcode op operand h s).commands = s.commands ++ (opcodeCommand op operand s).toList := by
  cases op with
  | dy => cases hp : s.pen <;> simp [applyOpcode, opcodeCommand, hp]
  | _ => simp [applyOpcode, opcodeCommand]

theorem applyOpcode_reports (op : Opcode) (operand : Int) (h : Byte) (s : State) :
    (applyOpcode op operand h s).reports = s.reports ++ (opcodeReport op h s).toList := by
  cases op <;> simp [applyOpcode, opcodeReport]

theorem getElem?_append_toList {α : Type} (l : List α) (o : Option α) : (l ++ o.toList)[l.length]? = o := by
  cases o <;> simp

/-- A running machine's step sends the command of the opcode at the cursor. -/
theorem emitted_eq {s t : State} {h : Byte} (hr : s.memRead s.cur = .ok h) (hs : step s = .next t) :
    emitted s t = opcodeCommand (classify h) (decOperand h s.gathered) s := by
  rw [step_of_header hr] at hs
  injection hs with hs
  rw [← hs, emitted, State.advance_commands, applyOpcode_commands, getElem?_append_toList]

/-- A running machine's step reports just a reserved header, with its offset (R130). -/
theorem reported_eq {s t : State} {h : Byte} (hr : s.memRead s.cur = .ok h) (hs : step s = .next t) :
    reported s t = opcodeReport (classify h) h s := by
  rw [step_of_header hr] at hs
  injection hs with hs
  rw [← hs, reported, State.advance_reports, applyOpcode_reports, getElem?_append_toList]

theorem running_of_emitted {s t : State} {c : Command} (hs : step s = .next t) (he : emitted s t = some c) :
    s.cur < s.len := by
  by_contra hc
  rw [← nextCommand_of_step hs, nextCommand_done (Nat.le_of_not_lt hc)] at he
  cases he

theorem running_of_reported {s t : State} {r : Report} (hs : step s = .next t) (he : reported s t = some r) :
    s.cur < s.len := by
  obtain ⟨-, rfl⟩ | ⟨hlt, -⟩ := step_cases hs
  · simp [reported] at he
  · exact hlt

/-- R100: of the commands that opcodes send, those of `DT` and `KEY` block. -/
theorem opcodeCommand_blocks_iff (op : Opcode) (operand : Int) (s : State) :
    (∃ c, opcodeCommand op operand s = some c ∧ c.blocks = true) ↔ (op = .dt ∨ op = .key) := by
  cases op with
  | dy => cases hp : s.pen <;> simp [opcodeCommand, hp, Command.blocks]
  | _ => simp [opcodeCommand, Command.blocks]

/-- Settles O48: the command is the opcode's. -/
theorem blockingCommandsComeFromDtAndKey : Obligations.BlockingCommandsComeFromDtAndKey := by
  intro s t h hr hs
  rw [emitted_eq hr hs]
  exact opcodeCommand_blocks_iff ..

/-! ### The invariant -/

/-- R20, R107: a pause is a six-bit field times 10, and a colour is an operand of DEC's 32-bit range. -/
theorem opcodeCommand_inRange {h : Byte} {ext : List Byte} {s : State} {c : Command} (hl : ext.length ≤ extraCount h)
    (hc : opcodeCommand (classify h) (decOperand h ext) s = some c) : c.inRange := by
  have hE := extraCount_le h
  cases hop : classify h with
  | dx | pen | invalid => simp [hop, opcodeCommand] at hc
  | dy =>
    simp only [hop, opcodeCommand, Option.ite_none_right_eq_some, Option.some.injEq] at hc
    obtain ⟨-, rfl⟩ := hc
    trivial
  | dt =>
    rw [hop, decOperand_of_dt hop] at hc
    cases hc
    exact ⟨(hdrImm h).toNat, (hdrImm h).isLt, by omega⟩
  | clear | key =>
    rw [hop] at hc
    cases hc
    trivial
  | col =>
    rw [hop] at hc
    cases hc
    exact operandFitsBus h ext (by omega)

theorem emitted_inRange {s t : State} {c : Command} (hs : step s = .next t) (he : emitted s t = some c) : c.inRange := by
  rw [emitted_eq (State.memRead_inside (running_of_emitted hs he)) hs] at he
  exact opcodeCommand_inRange s.length_gathered_le he

/-- A report made is of the frame at the cursor, a reserved one, which the step passes. -/
theorem reported_at_cursor {s t : State} {r : Report} (hs : step s = .next t) (he : reported s t = some r) :
    r.offset = s.cur ∧ s.cur < t.cur ∧ s.cur < s.len ∧ s.mem.read s.cur = r.header ∧ classify r.header = .invalid := by
  have hlt := running_of_reported hs he
  obtain ⟨-, -, hcur⟩ := step_cur hs
  rw [reported_eq (State.memRead_inside hlt) hs, opcodeReport, Option.ite_none_right_eq_some] at he
  obtain ⟨hinv, he⟩ := he
  cases he
  exact ⟨rfl, hcur hlt, hlt, rfl, hinv⟩

theorem step_keeps_anchored {s t : State} (ha : s.py = s.y) (hs : step s = .next t) : t.py = t.y := by
  by_cases hc : s.cur < s.len
  · have hr := State.memRead_inside hc
    by_cases hdy : classify (s.mem.read s.cur) = .dy
    · exact (step_dy_records hr hdy hs).2
    · obtain ⟨hy, -, hpy⟩ := (step_writesOnly hr hs).position hdy
      rw [hy, hpy, ha]
  · rw [step_done (Nat.le_of_not_lt hc)] at hs
    cases hs
    exact ha

theorem step_keeps_inv {s t : State} (hi : s.Inv) (hs : step s = .next t) : t.Inv := by
  obtain ⟨hmem, hlen⟩ := step_sameBuffer hs
  obtain ⟨hle, hmax, -⟩ := step_cur hs
  obtain ⟨hcmd, hrep⟩ := step_events hs
  constructor
  case canonical => rw [hmem]; exact hi.canonical
  case inside => rw [hmem, hlen]; exact hi.inside
  case cursor =>
    obtain ⟨-, rfl⟩ | ⟨hlt, -⟩ := step_cases hs
    · exact hi.cursor
    · omega
  case anchor => exact step_keeps_anchored hi.anchor hs
  case commands =>
    intro c hc
    rw [hcmd, List.mem_append, Option.mem_toList] at hc
    exact hc.elim (hi.commands c) (emitted_inRange hs)
  case reported =>
    intro r hr
    rw [hrep, List.mem_append, Option.mem_toList] at hr
    rw [hlen, hmem]
    rcases hr with hold | hnew
    · obtain ⟨hbehind, hrest⟩ := hi.reported r hold
      exact ⟨hbehind.trans_le hle, hrest⟩
    · obtain ⟨hoff, hrest⟩ := reported_at_cursor hs hnew
      rw [hoff]
      exact hrest
  case ordered =>
    rw [hrep, List.pairwise_append]
    refine ⟨hi.ordered, by cases reported s t <;> simp, fun a ha b hb => ?_⟩
    rw [Option.mem_toList] at hb
    rw [(reported_at_cursor hs hb).1]
    exact (hi.reported a ha).1

/-- R150: reset keeps the buffer and clears all else. -/
theorem applyReset_inv {s : State} (hi : s.Inv) : s.applyReset.Inv where
  canonical := hi.canonical
  inside := hi.inside
  cursor := Nat.zero_le _
  anchor := rfl
  commands := fun _ h => nomatch h
  reported := fun _ h => nomatch h
  ordered := List.Pairwise.nil

/-- A round resets the core, presents its next command, holds, or steps it. -/
theorem portStep_keeps_inv {inp : Inputs} {p q : PortState} (hi : p.Inv) (hs : portStep inp p = .next q) : q.Inv := by
  obtain ⟨-, rfl⟩ | ⟨-, ⟨c, -, hnext, rfl⟩ | ⟨-, -, rfl⟩ | ⟨t, ht, rfl, -⟩⟩ := portStep_cases hs
  · exact (applyReset_inv hi.core).idle
  · exact ⟨hi.core, fun d hd => hd ▸ hnext⟩
  · exact hi
  · exact (step_keeps_inv hi.core ht).idle

/-- Settles O54: a step keeps each clause of the invariant, and a round is a reset, a hold or a step. -/
theorem stepKeepsInvariant : Obligations.StepKeepsInvariant :=
  ⟨fun _ _ => step_keeps_inv, fun _ _ _ => portStep_keeps_inv⟩

/-! ### The hardware form -/

theorem portStep_holds {inp : Inputs} {p : PortState} {c : Command} (hc : p.outstanding = some c)
    (hreset : inp.reset = false) (hready : inp.cmdReady = false) : portStep inp p = .next p := by
  obtain ⟨t, ht⟩ := step_total p.core
  simp [portStep, hreset, ht, PortState.round, hc, hready]

theorem portRun_holds {inps : List Inputs} {p : PortState} {c : Command} (hc : p.outstanding = some c)
    (hin : ∀ inp ∈ inps, inp.reset = false ∧ inp.cmdReady = false) : portRun inps p = .next p := by
  induction inps with
  | nil => rfl
  | cons inp inps ih =>
    obtain ⟨⟨hreset, hready⟩, hin⟩ := List.forall_mem_cons.1 hin
    rw [portRun_cons (portStep_holds hc hreset hready), ih hin]

/-- R100: the surface's completion completes the step that sent the command. -/
theorem portStep_completes {p : PortState} {c : Command} {t : State} (hc : p.outstanding = some c)
    (ht : step p.core = .next t) :
    portStep { reset := false, cmdReady := true } p = .next { core := t, outstanding := none } := by
  simp [portStep, ht, PortState.round, hc]

/-- In the invariant the core's next step sends the command outstanding. -/
theorem PortState.Inv.sends {p : PortState} (hi : p.Inv) {c : Command} {t : State} (hc : p.outstanding = some c)
    (ht : step p.core = .next t) : emitted p.core t = some c := by
  rw [← nextCommand_of_step ht, hi.command c hc]

theorem PortState.Inv.commands_of_step {p : PortState} (hi : p.Inv) {c : Command} {t : State} (hc : p.outstanding = some c)
    (ht : step p.core = .next t) : t.commands = p.core.commands ++ [c] := by
  rw [(step_events ht).1, hi.sends hc ht]
  rfl

theorem PortState.Inv.inRange {p : PortState} (hi : p.Inv) {c : Command} (hc : p.outstanding = some c) : c.inRange := by
  obtain ⟨t, ht⟩ := step_total p.core
  exact emitted_inRange ht (hi.sends hc ht)

theorem PortState.cmdPort_eq {p : PortState} {c : Command} (hc : p.outstanding = some c) :
    p.cmdPort = cmdWires p.core.cur (some c) := by
  rw [PortState.cmdPort, hc]

theorem PortState.cmdPort_kind {p : PortState} {c : Command} (hc : p.outstanding = some c) : p.cmdPort.kind = c.kind := by
  rw [PortState.cmdPort_eq hc, cmdWires_kind]

/-- R107, R141: a pause in range fits its lane. -/
theorem pause_lane_toNat {cur ms : Nat} (h : (Command.pause ms).inRange) :
    (cmdWires cur (some (.pause ms))).a.toNat = ms := by
  obtain ⟨n, hn, rfl⟩ := h
  rw [cmdWires_pause_a, BitVec.toNat_ofNat]
  omega

/-- R20, R141: a colour in range fits its lane. -/
theorem colour_lane_toInt {cur : Nat} {n : Int} (h : (Command.colour n).inRange) :
    (cmdWires cur (some (.colour n))).a.toInt = n := by
  obtain ⟨hlo, hhi⟩ := h
  rw [cmdWires_colour_a]
  exact BitVec.toInt_ofInt_eq_self (by decide) (by omega) (by omega)

/-- Settles O58: without completion a round holds; the wires are the command's; in the invariant the core's step sends it. -/
theorem outstandingCommandHoldsMachine : Obligations.OutstandingCommandHoldsMachine := by
  intro p c hc
  have hwires := PortState.cmdPort_eq hc
  have hkind := PortState.cmdPort_kind hc
  refine ⟨fun _ => portRun_holds hc, by rw [PortState.status, hc], by rw [hwires]; rfl, ?_, ?_, ?_, ?_, ?_, fun hi => ?_⟩
  · rintro x0 y0 x1 y1 rfl
    rw [hwires, cmdWires_line]
  · rintro ms rfl
    exact hkind
  · rintro rfl
    exact hkind
  · rintro rfl
    exact hkind
  · rintro n rfl
    exact hkind
  · obtain ⟨t, ht⟩ := step_total p.core
    refine ⟨(status_running_iff _).2 (hi.running hc), ?_, ?_, t, ht, hi.commands_of_step hc ht, portStep_completes hc ht⟩
    · rintro ms rfl
      rw [hwires, pause_lane_toNat (hi.inRange hc)]
    · rintro n rfl
      rw [hwires, colour_lane_toInt (hi.inRange hc)]

/-- In the invariant the commands issued are the trace of the core, after one step more with a command outstanding. -/
theorem issued_eq_run_commands {p : PortState} (hi : p.Inv) :
    ∃ u, core.run p.outstanding.toList.length p.core = .next u ∧ p.issued = u.commands := by
  cases hc : p.outstanding with
  | none => exact ⟨p.core, rfl, by simp [PortState.issued, hc]⟩
  | some c =>
    obtain ⟨t, ht⟩ := step_total p.core
    exact ⟨t, run_succ ht, by rw [hi.commands_of_step hc ht, PortState.issued, hc]; rfl⟩

/-- A round without reset leaves the core (it presents or holds) or steps it. -/
theorem portStep_core {inp : Inputs} {p q : PortState} (hreset : inp.reset = false) (hp : portStep inp p = .next q) :
    q.core = p.core ∨ step p.core = .next q.core := by
  obtain ⟨htrue, -⟩ | ⟨-, ⟨c, -, -, rfl⟩ | ⟨-, -, rfl⟩ | ⟨t, ht, rfl, -⟩⟩ := portStep_cases hp
  · rw [hreset] at htrue
    cases htrue
  · exact .inl rfl
  · exact .inl rfl
  · exact .inr ht

/-- Settles O59, by induction on the inputs: each round adds one step of the core's run or none. -/
theorem portRunRefinesCoreRun : Obligations.PortRunRefinesCoreRun := by
  intro inps
  induction inps with
  | nil => exact fun p _ => ⟨p, 0, rfl, le_rfl, rfl, fun hi => by rw [Nat.zero_add]; exact issued_eq_run_commands hi⟩
  | cons inp inps ih =>
    intro p hin
    obtain ⟨hreset, hin⟩ := List.forall_mem_cons.1 hin
    obtain ⟨p', hp⟩ := portStep_total inp p
    obtain ⟨q, n, hq, hn, hrun, hissued⟩ := ih p' hin
    rw [portRun_cons hp]
    obtain hsame | hstep := portStep_core hreset hp
    · rw [hsame] at hrun hissued
      exact ⟨q, n, hq, Nat.le_succ_of_le hn, hrun, fun hi => hissued (portStep_keeps_inv hi hp)⟩
    · refine ⟨q, n + 1, hq, Nat.succ_le_succ hn, (run_succ hstep).trans hrun, fun hi => ?_⟩
      rw [Nat.add_right_comm, run_succ hstep]
      exact hissued (portStep_keeps_inv hi hp)

end Sys2Proof.Machine
end

section
/-! SUPPORT. The compact family (42_compact_ops.md): what `DX`, `DY` and `DT` do, the wrap of a position sum, and the range
in which positions are exact integers. -/

namespace Sys2Proof.Machine

/-! ### Position sums -/

/-- R108: the sum on 64 bits is the mathematical one reduced into the signed range (the spec's decision D8). -/
theorem toInt_addPos (p : Pos) (n : Int) : (addPos p n).toInt = (p.toInt + n + 2 ^ 63) % 2 ^ 64 - 2 ^ 63 := by
  rw [addPos, BitVec.toInt_add, BitVec.toInt_ofInt, Int.add_bmod_bmod, Int.bmod_def]
  omega

theorem toInt_addPos_of_fits {p : Pos} {n : Int} (hlo : -2 ^ 63 ≤ p.toInt + n) (hhi : p.toInt + n < 2 ^ 63) :
    (addPos p n).toInt = p.toInt + n := by
  rw [toInt_addPos]
  omega

/-! ### The compact instructions -/

theorem exec_dx (imm : Imm6) (s : State) :
    exec (.dx imm) s = .next { s with x := addPos s.x (moveOperand imm) } := rfl

theorem exec_dy (imm : Imm6) (s : State) :
    exec (.dy imm) s = .next { s with
      y := addPos s.y (moveOperand imm), px := s.x, py := addPos s.y (moveOperand imm),
      commands := s.commands ++ (if s.pen then [.line s.px s.py s.x (addPos s.y (moveOperand imm))] else []) } := by
  cases hp : s.pen <;> simp [exec, execDy, State.drawIfDown, State.stroke, State.setY, State.recordPosition, hp]

theorem exec_dt (imm : Imm6) (s : State) :
    exec (.dt imm) s = .next { s with commands := s.commands ++ [.pause (imm.toNat * 10)] } := rfl

/-- Settles O31: the sum that `DX` stores is the mathematical one where it fits. -/
theorem dxMovesX : Obligations.DxMovesX := by
  intro imm s operand
  have hop : moveOperand imm = operand := moveOperand_eq imm
  rw [← hop]
  exact ⟨_, exec_dx imm s, toInt_addPos_of_fits⟩

/-- Settles O32: the line runs from the old anchor to the new position, and the sum is the mathematical one where it fits. -/
theorem dyMovesDrawsAndRecords : Obligations.DyMovesDrawsAndRecords := by
  intro imm s operand
  have hop : moveOperand imm = operand := moveOperand_eq imm
  rw [← hop]
  exact ⟨_, exec_dy imm s, toInt_addPos_of_fits⟩

/-- Settles O33: the sum wraps, and it is what `DX` and `DY` store and `DY` draws to. -/
theorem positionSumWraps : Obligations.PositionSumWraps := by
  refine ⟨toInt_addPos, ?_⟩
  intro imm s operand
  have hop : moveOperand imm = operand := moveOperand_eq imm
  rw [← hop]
  exact ⟨exec_dx imm s, _, exec_dy imm s, rfl, rfl, fun hp => by simp only [hp, if_true]⟩

/-- Settles O34: the scale is 10 and the operand the six bits unsigned. -/
theorem dtEmitsPause : Obligations.DtEmitsPause := by
  intro imm s
  rw [exec_dt, Nat.mul_comm]

/-! ### Steps over a move -/

theorem decOperand_move {h : Byte} (hh : h.toNat < 128) (ext : List Byte) : decOperand h ext = moveOperand (hdrImm h) :=
  decOperand_of_move (by rw [hdrSel_toNat]; omega) ext

theorem frameLength_move {h : Byte} (hh : h.toNat < 128) : frameLength h = 1 := by
  rw [frameLength, extraCount_of_compact (by rw [hdrSel_toNat]; omega)]

/-- The frame of a move is its header alone, whatever bytes stand behind it. -/
theorem step_move {s : State} {h : Byte} (hr : s.memRead s.cur = .ok h) (hh : h.toNat < 128) :
    step s = .next ((applyOpcode (classify h) (decOperand h []) h s).advance 1) := by
  rw [step_of_header hr, frameLength_move hh, decOperand_move hh, decOperand_move hh]

theorem step_dx {s : State} {h : Byte} (hr : s.memRead s.cur = .ok h) (hc : classify h = .dx) :
    step s = .next { s with cur := s.cur + 1, x := addPos s.x (decOperand h []) } := by
  have hh := (classify_eq_dx_iff h).1 hc
  rw [step_move hr (by omega), hc]
  rfl

theorem step_dy {s : State} {h : Byte} (hr : s.memRead s.cur = .ok h) (hc : classify h = .dy) :
    step s = .next ((applyOpcode .dy (decOperand h []) h s).advance 1) := by
  have hh := (classify_eq_dy_iff h).1 hc
  rw [step_move hr hh.2, hc]

/-- Settles O46: `DX` keeps the anchor and draws nothing, so `DY`'s line starts at the old anchor and ends at both sums. -/
theorem dxThenDyDrawsOneDiagonal : Obligations.DxThenDyDrawsOneDiagonal := by
  intro s g h hg hh hgx hlo hhi hpen
  have hdx := step_dx hg ((classify_eq_dx_iff g).2 hgx)
  have hdy := step_dy (s := { s with cur := s.cur + 1, x := addPos s.x (decOperand g []) }) hh
    ((classify_eq_dy_iff h).2 ⟨hlo, hhi⟩)
  exact ⟨_, (run_succ hdx).trans (run_succ hdy), rfl, rfl, if_pos hpen⟩

/-! ### The range of exact positions -/

theorem Pos.within_mono {p : Pos} {c c' : Nat} (hc : c ≤ c') (hp : Pos.within p c) : Pos.within p c' := by
  obtain ⟨hlo, hhi⟩ := hp
  exact ⟨by omega, by omega⟩

/-- An operand of a move, -32 .. 31 (R76). -/
theorem moveOperand_range (imm : Imm6) : -32 ≤ moveOperand imm ∧ moveOperand imm < 32 := by
  rw [moveOperand_eq]
  split <;> omega

theorem decOperand_move_range {h : Byte} (hc : classify h = .dx ∨ classify h = .dy) (ext : List Byte) :
    -32 ≤ decOperand h ext ∧ decOperand h ext < 32 := by
  rw [classify_eq_dx_iff, classify_eq_dy_iff] at hc
  rw [decOperand_move (by omega)]
  exact moveOperand_range _

/-- R108: below `2^57` bytes passed, a move's sum fits 64 bits with room to spare. -/
theorem addPos_exact {p : Pos} {c : Nat} {n : Int} (hc : c < 2 ^ 57) (hp : Pos.within p c) (hn : -32 ≤ n ∧ n < 32) :
    (addPos p n).toInt = p.toInt + n := by
  obtain ⟨hlo, hhi⟩ := hp
  exact toInt_addPos_of_fits (by omega) (by omega)

/-- R108: the byte of the move itself pays for its operand. -/
theorem addPos_within {p : Pos} {c : Nat} {n : Int} (hc : c < 2 ^ 57) (hp : Pos.within p c) (hn : -32 ≤ n ∧ n < 32) :
    Pos.within (addPos p n) (c + 1) := by
  have hsum := addPos_exact hc hp hn
  obtain ⟨hlo, hhi⟩ := hp
  exact ⟨by omega, by omega⟩

/-- An opcode's effect and the advance: a coordinate is kept, copied from another or moved by an operand in range. -/
theorem applyOpcode_exact {op : Opcode} {operand : Int} {s : State} {n : Nat} (h : Byte) (hcur : s.cur < 2 ^ 57)
    (hi : s.Exact) (hop : op = .dx ∨ op = .dy → -32 ≤ operand ∧ operand < 32) (hn : 0 < n) :
    ((applyOpcode op operand h s).advance n).Exact := by
  obtain ⟨hx, hy, hpx, hpy⟩ := hi
  have keep {p : Pos} (hp : Pos.within p s.cur) : Pos.within p (s.cur + n) := Pos.within_mono (by omega) hp
  have move {p : Pos} (hp : Pos.within p s.cur) (hr : -32 ≤ operand ∧ operand < 32) :
      Pos.within (addPos p operand) (s.cur + n) := Pos.within_mono (by omega) (addPos_within hcur hp hr)
  cases op with
  | dx => exact ⟨move hx (hop (.inl rfl)), keep hy, keep hpx, keep hpy⟩
  | dy => exact ⟨keep hx, move hy (hop (.inr rfl)), keep hx, move hy (hop (.inr rfl))⟩
  | _ => exact ⟨keep hx, keep hy, keep hpx, keep hpy⟩

theorem step_keeps_exact {s t : State} (hlen : s.len < 2 ^ 57) (hi : s.Exact) (hs : step s = .next t) : t.Exact := by
  obtain ⟨-, rfl⟩ | ⟨hlt, -⟩ := step_cases hs
  · exact hi
  · rw [step_of_header (State.memRead_inside hlt)] at hs
    cases hs
    exact applyOpcode_exact _ (hlt.trans hlen) hi (fun hc => decOperand_move_range hc _) (frameLength_pos _)

/-- Settles O55: while a frame is left the cursor is below `LEN`, so the sum of a move fits 64 bits. -/
theorem positionsStayExact : Obligations.PositionsStayExact := by
  intro s t hlen hi hs
  refine ⟨step_keeps_exact hlen hi hs, fun h hr => ?_⟩
  have hcur : s.cur < 2 ^ 57 := (State.memRead_ok hr).1.trans hlen
  refine ⟨fun hc => ?_, fun hc => ?_⟩
  · rw [step_dx hr hc] at hs
    cases hs
    exact addPos_exact hcur hi.x (decOperand_move_range (.inl hc) [])
  · rw [step_dy hr hc] at hs
    cases hs
    exact addPos_exact hcur hi.y (decOperand_move_range (.inr hc) [])

theorem load_exact (bytes : List Byte) : (State.load bytes).Exact := by
  have hzero : Pos.within 0#64 0 := ⟨by decide, by decide⟩
  exact ⟨hzero, hzero, hzero, hzero⟩

/-- Settles O56: every register is zero at the start, and reset is the start over the empty buffer. -/
theorem positionsExactAtStart : Obligations.PositionsExactAtStart :=
  ⟨load_nil ▸ load_exact [], load_exact⟩

end Sys2Proof.Machine
end

section
/-! SUPPORT. The extended family (43_extended_ops.md): what `PEN`, `CLEAR`, `KEY`, `COL` and the reserved frames do, and the step
over a reserved header. -/

namespace Sys2Proof.Machine

/-! ### The four extended opcodes -/

theorem exec_pen (e : ExtLen) (ext : List Byte) (s : State) :
    exec (.pen e ext) s = .next { s with pen := !s.pen } := rfl

theorem exec_clear (e : ExtLen) (ext : List Byte) (s : State) :
    exec (.clear e ext) s = .next { s with commands := s.commands ++ [.clear] } := rfl

theorem exec_key (e : ExtLen) (ext : List Byte) (s : State) :
    exec (.key e ext) s = .next { s with commands := s.commands ++ [.key] } := rfl

theorem exec_col (e : ExtLen) (ext : List Byte) (s : State) :
    exec (.col e ext) s = .next { s with commands := s.commands ++ [.colour (payloadOperand ext)] } := rfl

/-- Settles O35: the pen is negated, and negating it twice gives it back. -/
theorem penToggles : Obligations.PenToggles := by
  intro e e' ext ext' s
  refine ⟨?_, fun t ht => ?_⟩
  · rw [exec_pen]
    cases s.pen <;> rfl
  · rw [exec_pen] at ht
    cases ht
    rw [exec_pen, Bool.not_not]

/-- Settles O36: neither meaning reads the length or the payload. -/
theorem clearAndKeyEmit : Obligations.ClearAndKeyEmit :=
  fun e ext s => ⟨exec_clear e ext s, exec_key e ext s⟩

/-- Settles O37: the colour is the payload's operand, 0 for no byte and else the sign conversion of what the bytes pack to. -/
theorem colEmitsSignedPayload : Obligations.ColEmitsSignedPayload := by
  intro s
  refine ⟨exec_col .e0 [] s, fun e b bs _ => ?_⟩
  rw [exec_col, payloadOperand_eq_signed, signed_eq_ite_lt]
  rfl

/-! ### Reserved frames -/

/-- R119: a frame with a reserved header reports that header where it stands, and nothing else. -/
theorem exec_of_reserved {i : Instr} (hi : classify i.header = .invalid) (s : State) :
    exec i s = .next { s with reports := s.reports ++ [.invalidInstruction s.cur i.header] } := by
  rw [exec_next, effect_of_reserved i hi, State.reportInvalid]

/-- An extended header as a number: `s = 3`, the length selector and the code, each at its weight (R50). -/
theorem extHeader_eq_ofNat (e : ExtLen) (xop : BitVec 4) :
    extHeader e xop = BitVec.ofNat 8 (0xC0 + 16 * (selOfExtLen e).toNat + xop.toNat) := by
  cases e <;> revert xop <;> decide

/-- Settles O39: each code is reserved, and the header it gives is the length's first header plus the code. -/
theorem reservedFramesReportOnly : Obligations.ReservedFramesReportOnly := by
  intro ext s p hp reports
  have hbase : p.2 = 0xC0 + 16 * (selOfExtLen p.1).toNat := by revert p; decide
  have hreport {i : Instr} (xop : BitVec 4) (hh : i.header = extHeader p.1 xop) (hx : xop.toNat ∉ [3, 4, 5, 6]) :
      exec i s = reports xop.toNat := by
    rw [exec_of_reserved (hh ▸ classify_extHeader_reserved p.1 hx), hh, extHeader_eq_ofNat, ← hbase]
  exact ⟨hreport 0 rfl (by decide), hreport 1 rfl (by decide), hreport 2 rfl (by decide), hreport 7 rfl (by decide),
    hreport 8 rfl (by decide), hreport 9 rfl (by decide), hreport 10 rfl (by decide), hreport 11 rfl (by decide),
    hreport 12 rfl (by decide), hreport 13 rfl (by decide), hreport 14 rfl (by decide), hreport 15 rfl (by decide)⟩

/-- R71: an extended header whose code is none of the four opcodes is invalid. -/
theorem classify_of_reserved {h : Byte} (hh : 192 ≤ h.toNat) (hx : h.toNat % 16 ∉ [3, 4, 5, 6]) :
    classify h = .invalid := by
  simp only [List.mem_cons, List.not_mem_nil, or_false, not_or] at hx
  obtain ⟨h3, h4, h5, h6⟩ := hx
  rw [classify_of_extended (hdrSel_of_extended hh), if_neg h3, if_neg h4, if_neg h5, if_neg h6]

/-- Settles O44: the header classifies as invalid, so the step is the report and the advance by the declared length. -/
theorem invalidFrameIsSkippedWhole : Obligations.InvalidFrameIsSkippedWhole := by
  intro s h hr hh hx
  rw [step_of_header hr, classify_of_reserved hh hx]
  rfl

end Sys2Proof.Machine
end

section
/-! SUPPORT. The exceptions family (60_exceptions.md): runs that never stop, the one event of a step, a colour cut short by the
buffer's end, and the report pulse. -/

namespace Sys2Proof.Machine

/-! ### Runs never stop -/

theorem SameBuffer.trans {s t u : State} (hst : SameBuffer s t) (htu : SameBuffer t u) : SameBuffer s u :=
  ⟨htu.1.trans hst.1, fun a => (htu.2 a).trans (hst.2 a)⟩

/-- Settles O26, by induction on the steps: each answers a state with the same buffer and a cursor no lower. -/
theorem runNeverStopsNorWritesBuffer : Obligations.RunNeverStopsNorWritesBuffer := by
  intro n
  induction n with
  | zero => exact fun s => ⟨s, rfl, .of_fields rfl rfl, le_rfl⟩
  | succ n ih =>
    intro s
    obtain ⟨t, hs⟩ := step_total s
    obtain ⟨hmem, hlen⟩ := step_sameBuffer hs
    obtain ⟨hle, -, -⟩ := step_cur hs
    obtain ⟨u, hr, hbuf, hle'⟩ := ih t
    exact ⟨u, (run_succ hs).trans hr, (SameBuffer.of_fields hmem hlen).trans hbuf, hle.trans hle'⟩

/-! ### The one event of a step -/

/-- R20, R21: only `invalid` makes a report, and it sends no command. -/
theorem opcode_events_le_one (op : Opcode) (operand : Int) (h : Byte) (s : State) :
    (opcodeCommand op operand s).toList.length + (opcodeReport op h s).toList.length ≤ 1 := by
  by_cases hop : op = .invalid
  · subst hop
    exact le_rfl
  · rw [opcodeReport, if_neg hop]
    exact Option.length_toList_le

/-- Settles O42: in `DONE` there is no event, else the events are those of the opcode at the cursor. -/
theorem atMostOneEventAStep : Obligations.AtMostOneEventAStep := by
  intro s t hs
  obtain ⟨hcmd, hrep⟩ := step_events hs
  refine ⟨_, _, hcmd, hrep, ?_⟩
  obtain ⟨-, rfl⟩ | ⟨hlt, -⟩ := step_cases hs
  · simp [emitted, reported]
  · have hr := State.memRead_inside hlt
    rw [emitted_eq hr hs, reported_eq hr hs]
    exact opcode_events_le_one ..

/-! ### A frame cut short by the buffer's end -/

/-- R93: a frame that reaches the buffer's end gathers all that remains after its header. -/
theorem gathered_eq_remaining_tail {s : State} (hlt : s.cur < s.len)
    (hend : s.len ≤ s.cur + frameLength (s.mem.read s.cur)) : s.gathered = s.remaining.tail := by
  rw [gathered_eq_take hlt, List.take_of_length_le]
  simp only [State.remaining, List.length_tail, List.length_map, List.length_range, frameLength] at hend ⊢
  omega

theorem classify_eq_col_iff (h : Byte) : classify h = .col ↔ h.toNat ∈ [0xC6, 0xD6, 0xE6, 0xF6] := by revert h; decide

theorem decOperand_of_col {h : Byte} (hc : classify h = .col) (ext : List Byte) : decOperand h ext = payloadOperand ext := by
  have hsel : (hdrSel h).toNat = 3 := by revert h; decide
  exact decOperand_of_extended hsel ext

/-- A running machine's step over a `COL` header sends the colour of the bytes gathered (R118). -/
theorem step_col {s : State} {h : Byte} (hr : s.memRead s.cur = .ok h) (hc : classify h = .col) :
    step s = .next { s with
      cur := s.cur + frameLength h
      commands := s.commands ++ [.colour (payloadOperand s.gathered)] } := by
  rw [step_of_header hr, decOperand_of_col hc, hc]
  rfl

/-- Settles O45: both headers are `COL`'s, and the bytes gathered are all that remain. -/
theorem truncatedColUsesBytesPresent : Obligations.TruncatedColUsesBytesPresent := by
  intro s h hr hh _ hend
  have hcol := (classify_eq_col_iff h).2 (List.mem_cons_of_mem _ (List.mem_cons_of_mem _ hh))
  obtain ⟨hlt, rfl⟩ := State.memRead_ok hr
  refine ⟨_, step_col hr hcol, (status_done_iff _).2 hend.le, rfl, ?_⟩
  rw [gathered_eq_remaining_tail hlt hend.le]

/-! ### The report pulse -/

/-- The frame of a reserved header sends no command, so a machine about to send one makes no report. -/
theorem opcodeReport_eq_none_of_nextCommand {s : State} {h : Byte} {c : Command} (hr : s.memRead s.cur = .ok h)
    (hc : s.nextCommand = some c) : opcodeReport (classify h) h s = none := by
  obtain ⟨t, hs⟩ := step_total s
  rw [nextCommand_of_step hs, emitted_eq hr hs] at hc
  refine if_neg fun hinv => ?_
  rw [hinv] at hc
  cases hc

theorem reported_self (s : State) : reported s s = none := List.getElem?_length _

/-- A round without reset makes the report of the header at the cursor: one that completes a step makes the step's, and one that
presents or holds a command makes none. -/
theorem portStep_reported {inp : Inputs} {p q : PortState} {h : Byte} (hi : p.Inv) (hreset : inp.reset = false)
    (hr : p.core.memRead p.core.cur = .ok h) (hp : portStep inp p = .next q) :
    reported p.core q.core = opcodeReport (classify h) h p.core := by
  obtain ⟨htrue, -⟩ | ⟨-, ⟨c, -, hnext, rfl⟩ | ⟨hout, -, rfl⟩ | ⟨t, hs, rfl, -⟩⟩ := portStep_cases hp
  · rw [hreset] at htrue
    cases htrue
  · rw [reported_self, opcodeReport_eq_none_of_nextCommand hr hnext]
  · obtain ⟨c, hc⟩ := Option.isSome_iff_exists.1 hout
    rw [reported_self, opcodeReport_eq_none_of_nextCommand hr (hi.command c hc)]
  · exact reported_eq hr hs

/-- Settles O49: a step's report is the opcode's, and so is a round's. -/
theorem reportPulseExactlyOnReservedHeader : Obligations.ReportPulseExactlyOnReservedHeader :=
  ⟨fun _ _ _ => reported_eq, fun _ _ _ _ => portStep_reported⟩

end Sys2Proof.Machine
end

section
/-! SUPPORT. The reset family (70_reset_and_hazards.md): reset from any state, a frame that the host places, and the progress of
the hardware form under a surface that completes its commands. -/

namespace Sys2Proof.Machine

/-! ### Reset -/

/-- Settles O51: the reset input is looked at before the command outstanding, and reset leaves only the buffer. -/
theorem resetFromAnyState : Obligations.ResetFromAnyState :=
  fun _ _ => ⟨_, rfl, rfl, .of_fields rfl rfl, rfl, rfl, rfl, rfl, rfl, rfl, rfl, rfl⟩

/-! ### A frame that the host places -/

theorem decode_tableBytes {nbits w : Nat} {i : Instr} (h : decodeTableWord nbits w = some i) :
    ∃ rest, decode (tableBytes nbits w) = .ok (i, rest) := by
  rw [decodeTableWord] at h
  split at h
  next hdec =>
    cases h
    exact ⟨_, hdec⟩
  next => cases h

/-- A table word has as many bytes as the longest frame, so no frame decoded from one is cut short. -/
theorem full_of_decodeTableWord {nbits w : Nat} {i : Instr} (h : decodeTableWord nbits w = some i) : i.full = true := by
  obtain ⟨rest, hdec⟩ := decode_tableBytes h
  obtain ⟨hwf, hbytes, htrunc⟩ := decodedFrameEncodesBack _ i rest hdec
  by_contra hfull
  rw [Bool.not_eq_true] at hfull
  have hlen := congrArg List.length hbytes
  simp only [htrunc hfull, List.append_nil, encode, List.length_cons, tableBytes, List.length_nil] at hlen
  have hle : i.payload.length ≤ i.extLen.count := of_decide_eq_true hwf
  have hne : i.payload.length ≠ i.extLen.count := of_decide_eq_false hfull
  have hmax := i.extLen.count_le
  omega

theorem tableFrame_eq_encode {nbits w : Nat} {i : Instr} (h : decodeTableWord nbits w = some i) :
    tableFrame nbits w = encode i := by
  simp only [tableFrame, h]

/-- Bytes that stand in the buffer from the cursor up are the first of those that remain. -/
theorem take_remaining {s : State} {bs : List Byte} (hlen : s.cur + bs.length ≤ s.len)
    (hread : ∀ (j : Nat) (hj : j < bs.length), s.mem.read (s.cur + j) = bs[j]) : s.remaining.take bs.length = bs := by
  refine List.ext_getElem ?_ fun j _ hj => ?_
  · simp only [State.remaining, List.length_take, List.length_map, List.length_range]
    omega
  · simp [State.remaining, hread j hj]

/-- R156: the bytes placed stand where the machine fetches, and `LEN` reaches their end. -/
theorem take_remaining_withFetchWord {s : State} (hm : s.mem.wf = true) (nbits w : Nat) :
    (s.withFetchWord nbits w).remaining.take (tableFrame nbits w).length = tableFrame nbits w :=
  take_remaining (Nat.le_max_right ..) fun j hj => Memory.read_loadAt hm s.cur (tableFrame nbits w) j hj

/-- The bytes that remain after the placing begin with the full frame, so they decode to it. -/
theorem decode_remaining_withFetchWord {s : State} {nbits w : Nat} {i : Instr} (hm : s.mem.wf = true)
    (hdec : decodeTableWord nbits w = some i) : ∃ rest, decode (s.withFetchWord nbits w).remaining = .ok (i, rest) := by
  have hfull := full_of_decodeTableWord hdec
  have hwf : i.wf = true := decide_eq_true (of_decide_eq_true hfull : i.payload.length = i.extLen.count).le
  have htake := take_remaining_withFetchWord hm nbits w
  rw [tableFrame_eq_encode hdec] at htake
  rw [← List.take_append_drop (encode i).length (s.withFetchWord nbits w).remaining, htake]
  exact ⟨_, fullFrameRoundTrip i _ hwf hfull⟩

/-- Settles O23: a step runs the frame that the remaining bytes decode to, here the one placed. -/
theorem placedWordRunsNext : Obligations.PlacedWordRunsNext := by
  intro s nbits w i hm hdec
  obtain ⟨rest, hnext⟩ := decode_remaining_withFetchWord hm hdec
  obtain ⟨-, -, hstep⟩ := stepRunsDecodedFrame _ i rest hnext
  exact ⟨full_of_decodeTableWord hdec, hstep⟩

/-! ### Runs that end -/

theorem run_done {s : State} (hd : s.len ≤ s.cur) (n : Nat) : core.run n s = .next s := by
  induction n with
  | zero => rfl
  | succ n ih => rw [run_succ (step_done hd), ih]

/-- A machine holds still in `DONE`, so every run that ends, however long, ends in one state. -/
theorem run_done_unique {m n : Nat} {s t u : State} (ht : core.run m s = .next t) (hu : core.run n s = .next u)
    (htd : t.status = .done) (hud : u.status = .done) : t = u := by
  induction m generalizing s n with
  | zero =>
    cases ht
    rw [run_done ((status_done_iff _).1 htd)] at hu
    cases hu
    rfl
  | succ m ih =>
    cases n with
    | zero =>
      cases hu
      rw [run_done ((status_done_iff _).1 hud)] at ht
      cases ht
      rfl
    | succ n =>
      obtain ⟨v, hv⟩ := step_total s
      exact ih (run_succ hv ▸ ht) (run_succ hv ▸ hu)

/-- R97: the state in which a run ends is that after as many steps as bytes remain. -/
theorem run_remaining_of_run_done {n : Nat} {s t : State} (ht : core.run n s = .next t) (htd : t.status = .done) :
    core.run (s.len - s.cur) s = .next t := by
  obtain ⟨u, hu, hud⟩ := run_reaches_done (n := s.len - s.cur) (s := s) (by omega)
  rw [hu, run_done_unique ht hu htd hud]

/-! ### Progress of the hardware form -/

/-- Ready rounds that surely end a run: for each byte that remains one to present a command and one to complete it, less one
for a command presented already. -/
def PortState.roundsLeft (p : PortState) : Nat := 2 * (p.core.len - p.core.cur) - p.outstanding.toList.length

/-- A round without reset makes progress, unless it holds a command for which the surface is not ready. -/
theorem portStep_roundsLeft {inp : Inputs} {p q : PortState} (hreset : inp.reset = false) (hp : portStep inp p = .next q) :
    q.roundsLeft ≤ p.roundsLeft - inp.cmdReady.toNat := by
  have hready := inp.cmdReady.toNat_le
  obtain ⟨htrue, -⟩ | ⟨-, ⟨c, hnone, -, rfl⟩ | ⟨-, hwait, rfl⟩ | ⟨t, ht, rfl, -⟩⟩ := portStep_cases hp
  · rw [hreset] at htrue
    cases htrue
  · simp only [PortState.roundsLeft, hnone, Option.toList_some, Option.toList_none, List.length_singleton, List.length_nil]
    omega
  · rw [hwait, Bool.toNat_false, Nat.sub_zero]
  · obtain ⟨hle, -, hlt⟩ := step_cur ht
    obtain ⟨-, hlen⟩ := step_sameBuffer ht
    have hout : p.outstanding.toList.length ≤ 1 := Option.length_toList_le
    simp only [PortState.roundsLeft, hlen, Option.toList_none, List.length_nil]
    omega

theorem portRun_keeps_inv {inps : List Inputs} {p q : PortState} (hi : p.Inv) (hq : portRun inps p = .next q) : q.Inv := by
  induction inps generalizing p with
  | nil => cases hq; exact hi
  | cons inp inps ih =>
    obtain ⟨p', hp⟩ := portStep_total inp p
    exact ih (portStep_keeps_inv hi hp) (portRun_cons hp ▸ hq)

/-- Each ready round of a run counts. -/
theorem portRun_roundsLeft {inps : List Inputs} {p q : PortState} (hin : ∀ inp ∈ inps, inp.reset = false)
    (hq : portRun inps p = .next q) : q.roundsLeft ≤ p.roundsLeft - inps.countP (fun inp => inp.cmdReady) := by
  induction inps generalizing p with
  | nil => cases hq; exact le_rfl
  | cons inp inps ih =>
    obtain ⟨hreset, hin⟩ := List.forall_mem_cons.1 hin
    obtain ⟨p', hp⟩ := portStep_total inp p
    have hfirst := portStep_roundsLeft hreset hp
    have hrest := ih hin (portRun_cons hp ▸ hq)
    have hcount : (inp :: inps).countP (fun inp => inp.cmdReady) =
        inps.countP (fun inp => inp.cmdReady) + inp.cmdReady.toNat := by
      rw [List.countP_cons]
      cases inp.cmdReady <;> rfl
    omega

/-- In the invariant a command outstanding leaves its own frame to run, so with no round left there is none. -/
theorem PortState.Inv.done_of_roundsLeft {p : PortState} (hi : p.Inv) (h : p.roundsLeft = 0) :
    p.outstanding = none ∧ p.core.status = .done := by
  rw [PortState.roundsLeft] at h
  cases hc : p.outstanding with
  | some c =>
    have hrun := hi.running hc
    rw [hc, Option.toList_some, List.length_singleton] at h
    omega
  | none =>
    rw [hc, Option.toList_none, List.length_nil] at h
    exact ⟨rfl, (status_done_iff _).2 (by omega)⟩

/-- Settles O60: the ready rounds use up what is left, and the state in which the core is then done is that of its own run. -/
theorem servedPortRunReachesDone : Obligations.ServedPortRunReachesDone := by
  intro inps p hi hin hcount
  obtain ⟨q, n, hq, -, hrun, -⟩ := portRunRefinesCoreRun inps p hin
  have hleft := portRun_roundsLeft hin hq
  have hstart : p.roundsLeft ≤ 2 * (p.core.len - p.core.cur) := Nat.sub_le ..
  obtain ⟨hnone, hdone⟩ := (portRun_keeps_inv hi hq).done_of_roundsLeft (by omega)
  exact ⟨q, hq, by rw [PortState.status, hnone]; exact hdone, hdone, hnone, run_remaining_of_run_done hrun hdone⟩

end Sys2Proof.Machine
end
